-- ==== Sys2Proof/Word.lean ====
section
/-! DEFINITION. The word types of OSOS-CORE32: 8-bit memory bytes (R60), 16-bit views and fields
(R23, R121), and the 32-bit width `XLEN` of registers, `ip` and addresses (R7, R20, R28). -/

namespace Sys2Proof

/-- One byte of Memory (R60). -/
abbrev Byte := BitVec 8

/-- A 16-bit value: a register's low half (R23), a `fetch16` result (R121), a Loader field (R260). -/
abbrev Half := BitVec 16

/-- A 32-bit value: general register, `ip`, address, immediate, displacement (R7 `XLEN`). -/
abbrev Word := BitVec 32

end Sys2Proof
end

