-- ==== Sys2Proof/Config.lean ====
section
/-! DEFINITION. The implementation parameters of R7: the opcode and prefix bytes, the two behavioural
parameters (`PUSH_SP_VALUE`, `OPSIZE16_POLICY`), the Loader's parameters, and the capacity the reset
core is created with. What R7 marks open is a field of a structure that the model takes as an
argument; the spec's default is a value of that structure. -/

namespace Sys2Proof.Config

/-- `OPC_ADD_ACC_IMM`, from the source: not open (R7, R171). -/
def opcAddAccImm : Byte := 0x05
/-- `OPC_MOV_BASE`, from the source: not open (R7, R161). That the seven bytes after it are the other
registers' is PRESUMED, log entry 1. -/
def opcMovBase : Byte := 0xB8

/-- The nine opcode and prefix bytes R7 marks open (D2): arguments of the decoder, the encoder and
the core. -/
structure Opcodes where
  /-- `OPC_NOP` (R160). -/
  nop : Byte
  /-- `OPC_JMP_REL32` (R180). -/
  jmpRel32 : Byte
  /-- `OPC_CALL_REL32` (R181). -/
  callRel32 : Byte
  /-- `OPC_RET` (R182). -/
  ret : Byte
  /-- `OPC_PUSH_BASE` (R192). -/
  pushBase : Byte
  /-- `OPC_POP_BASE` (R194). -/
  popBase : Byte
  /-- `OPC_HLT` (R200). -/
  hlt : Byte
  /-- `PFX_OPSIZE` (R143). -/
  pfxOpsize : Byte
  /-- `PFX_ADDRSIZE` (R143). -/
  pfxAddrsize : Byte
deriving DecidableEq, Repr

/-- The spec's defaults of the open bytes (R7, R100). PRESUMED (the IA-32 values): log entry 1. -/
def defaultOpcodes : Opcodes :=
  { nop := 0x90, jmpRel32 := 0xE9, callRel32 := 0xE8, ret := 0xC3, pushBase := 0x50,
    popBase := 0x58, hlt := 0xF4, pfxOpsize := 0x66, pfxAddrsize := 0x67 }

/-- What a byte of Memory that nothing has written reads as (R47, D25). DESIGN CHOICE of the spec:
log entry 5. -/
def memoryFill : Byte := 0x00

/-- The capacity `N` of the core `State.reset` describes. The spec gives no value (R60, D17); this is
the `N` of its own whole-image example P7. DESIGN CHOICE: log entry 4. Statements never rest on it:
the capacity is a field of the state, and they hold for every value of it. -/
def resetMemSize : Nat := 0x120000

/-- `STACK_OFFSET`: the Loader's stack offset above the image base (R7, R264). -/
def stackOffset : Word := 0x100000

/-- The open parameter `PUSH_SP_VALUE` (R7, R193): which value a push of register 4 stores. -/
inductive PushSpValue
  /-- The value before the decrement (the spec's default, D11). -/
  | old
  /-- The value after the decrement (`new` in R193). -/
  | decremented
deriving DecidableEq, Repr

/-- The open parameter `OPSIZE16_POLICY` (R7, R149): what a dispatch under a 16-bit toggle means. -/
inductive Opsize16Policy
  /-- The toggles affect nothing (the spec's default, D7). -/
  | ignore
  /-- A step that would dispatch while either toggle is 16 has no meaning (D7's alternative). -/
  | refuse
deriving DecidableEq, Repr

/-- The open parameters of one core, fixed when it is created (R7: "a model should take the
parameter as an argument where the "open" column says so"). -/
structure Params where
  opcodes : Opcodes
  pushSpValue : PushSpValue
  opsize16Policy : Opsize16Policy
deriving DecidableEq, Repr

/-- The spec's defaults (R7): PRESUMED (log entry 1) and DESIGN CHOICE (log entries 7 and 8). -/
def defaultParams : Params :=
  { opcodes := defaultOpcodes, pushSpValue := .old, opsize16Policy := .ignore }

/-- The Loader's open parameters (R7). The signatures and the target class (D26) are the
little-endian values of their bytes; `MAGIC_PE64` needs no field: any value but the 32-bit one fails
alike (R259). -/
structure LoaderParams where
  sigMZ : Half
  sigPE : Word
  magicPE32 : Half
  /-- `SYSCALL_HOOK` (R266, D28): absent, or the address of a hook. What triggers a hook and what it
  does "are not given anywhere". -/
  syscallHook : Option Word
deriving DecidableEq, Repr

/-- `4D 5A`, `50 45 00 00` and `0x010B` (R7): PRESUMED (PE/COFF), log entry 28. The hook is absent
(D28): DESIGN CHOICE, log entry 31. -/
def defaultLoaderParams : LoaderParams :=
  { sigMZ := 0x5A4D, sigPE := 0x00004550, magicPE32 := 0x010B, syscallHook := none }

end Sys2Proof.Config
end

