-- ==== Sys2Proof/Syntax.lean ====
section
/-! DEFINITION. The instructions of OSOS-CORE32: one constructor of `Instr` per row of
spec/opcode_table.json (30 instruction bytes and the 2 prefix bytes), and the instruction as it
stands in Memory, any number of prefix bytes before one opcode (R90). -/

namespace Sys2Proof

/-- The eight general registers in index order 0 to 7 (R21). -/
inductive Reg
  /-- 0, accumulator (EAX): destination and left operand of ADD. -/
  | acc
  /-- 1, counter (ECX). -/
  | cnt
  /-- 2, data (EDX). -/
  | dat
  /-- 3, base (EBX). -/
  | bas
  /-- 4, stack-pointer (ESP): implicit base of `push32` and `pop32`. -/
  | sp
  /-- 5, base-pointer (EBP). -/
  | bp
  /-- 6, source-index (ESI). -/
  | si
  /-- 7, destination-index (EDI). -/
  | di
deriving DecidableEq, Repr

/-- The two override prefixes (R101). -/
inductive Override
  /-- Operand-size-override. -/
  | opsize
  /-- Address-size-override. -/
  | adsize
deriving DecidableEq, Repr

/-- One row of the opcode table with its operand (R100; spec/opcode_table.json). Immediates and
displacements are the 32-bit fields of formats I32, RI32 and D32 (R94, R95, R99). -/
inductive Instr
  /-- `05 imm32` (R171). -/
  | addAcc (imm : Word)
  /-- `50` (R192). -/
  | pushAcc
  /-- `51` (R192). -/
  | pushCnt
  /-- `52` (R192). -/
  | pushDat
  /-- `53` (R192). -/
  | pushBas
  /-- `54` (R192, R193). -/
  | pushSp
  /-- `55` (R192). -/
  | pushBp
  /-- `56` (R192). -/
  | pushSi
  /-- `57` (R192). -/
  | pushDi
  /-- `58` (R194). -/
  | popAcc
  /-- `59` (R194). -/
  | popCnt
  /-- `5A` (R194). -/
  | popDat
  /-- `5B` (R194). -/
  | popBas
  /-- `5C` (R194, R195). -/
  | popSp
  /-- `5D` (R194). -/
  | popBp
  /-- `5E` (R194). -/
  | popSi
  /-- `5F` (R194). -/
  | popDi
  /-- `66`, the operand-size-override prefix byte (R143). -/
  | opsize
  /-- `67`, the address-size-override prefix byte (R143). -/
  | adsize
  /-- `90` (R160). -/
  | nop
  /-- `B8 imm32` (R161). -/
  | movAcc (imm : Word)
  /-- `B9 imm32` (R161). -/
  | movCnt (imm : Word)
  /-- `BA imm32` (R161). -/
  | movDat (imm : Word)
  /-- `BB imm32` (R161). -/
  | movBas (imm : Word)
  /-- `BC imm32` (R161, R162). -/
  | movSp (imm : Word)
  /-- `BD imm32` (R161). -/
  | movBp (imm : Word)
  /-- `BE imm32` (R161). -/
  | movSi (imm : Word)
  /-- `BF imm32` (R161). -/
  | movDi (imm : Word)
  /-- `C3` (R182). -/
  | ret
  /-- `E8 rel32` (R181). -/
  | call (rel : Word)
  /-- `E9 rel32` (R180). -/
  | jmp (rel : Word)
  /-- `F4` (R200). -/
  | hlt
deriving DecidableEq, Repr

/-- A table row without its operand: what one opcode byte selects (R100, R101). -/
inductive Opcode
  /-- A prefix byte (R101). -/
  | override (p : Override)
  /-- NOP (R160). -/
  | nop
  /-- MOV r32, imm32 (R161). -/
  | mov (r : Reg)
  /-- ADD ACC, imm32 (R171). -/
  | addAcc
  /-- JMP rel32 (R180). -/
  | jmp
  /-- CALL rel32 (R181). -/
  | call
  /-- RET (R182). -/
  | ret
  /-- PUSH r32 (R192). -/
  | push (r : Reg)
  /-- POP r32 (R194). -/
  | pop (r : Reg)
  /-- HLT (R200). -/
  | hlt
deriving DecidableEq, Repr

/-- PUSH r32 for a register (R192: "eight opcodes", one per register). -/
def Instr.push : Reg → Instr
  | .acc => .pushAcc
  | .cnt => .pushCnt
  | .dat => .pushDat
  | .bas => .pushBas
  | .sp => .pushSp
  | .bp => .pushBp
  | .si => .pushSi
  | .di => .pushDi

/-- POP r32 for a register (R194). -/
def Instr.pop : Reg → Instr
  | .acc => .popAcc
  | .cnt => .popCnt
  | .dat => .popDat
  | .bas => .popBas
  | .sp => .popSp
  | .bp => .popBp
  | .si => .popSi
  | .di => .popDi

/-- MOV r32, imm32 for a register (R161). -/
def Instr.mov (r : Reg) (imm : Word) : Instr :=
  match r with
  | .acc => .movAcc imm
  | .cnt => .movCnt imm
  | .dat => .movDat imm
  | .bas => .movBas imm
  | .sp => .movSp imm
  | .bp => .movBp imm
  | .si => .movSi imm
  | .di => .movDi imm

/-- The table row of a prefix byte. -/
def Override.toInstr : Override → Instr
  | .opsize => .opsize
  | .adsize => .adsize

/-- The two rows that are "not an instruction: consumed inside the step of the opcode that
follows" (spec/opcode_table.json, R101). -/
def Instr.isPrefix : Instr → Bool
  | .opsize => true
  | .adsize => true
  | .addAcc _ => false
  | .pushAcc => false
  | .pushCnt => false
  | .pushDat => false
  | .pushBas => false
  | .pushSp => false
  | .pushBp => false
  | .pushSi => false
  | .pushDi => false
  | .popAcc => false
  | .popCnt => false
  | .popDat => false
  | .popBas => false
  | .popSp => false
  | .popBp => false
  | .popSi => false
  | .popDi => false
  | .nop => false
  | .movAcc _ => false
  | .movCnt _ => false
  | .movDat _ => false
  | .movBas _ => false
  | .movSp _ => false
  | .movBp _ => false
  | .movSi _ => false
  | .movDi _ => false
  | .ret => false
  | .call _ => false
  | .jmp _ => false
  | .hlt => false

/-- An instruction as one step consumes it: zero or more prefix bytes, then one opcode with its
operand (R90, R101). -/
structure StepCode where
  prefixes : List Override
  core : Instr
deriving DecidableEq, Repr

/-! ### Assembler syntax (R110, R112): names only, no meaning rests on them -/

/-- A register's name in the spec's syntax (R112). -/
def Reg.name : Reg → String
  | .acc => "ACC"
  | .cnt => "CNT"
  | .dat => "DAT"
  | .bas => "BAS"
  | .sp => "SP"
  | .bp => "BP"
  | .si => "SI"
  | .di => "DI"

/-- A register's accepted IA-32 alias (R112). -/
def Reg.ia32Name : Reg → String
  | .acc => "EAX"
  | .cnt => "ECX"
  | .dat => "EDX"
  | .bas => "EBX"
  | .sp => "ESP"
  | .bp => "EBP"
  | .si => "ESI"
  | .di => "EDI"

/-- A word as a hexadecimal literal of that syntax (R110). -/
def hexLiteral (w : Word) : String := "0x" ++ String.ofList (Nat.toDigits 16 w.toNat)

/-- An instruction in that syntax (R110). A JMP or CALL is written there with its target, so the
printed form takes the address of the instruction that follows: `target = next + rel32`. -/
def Instr.asm (next : Word) : Instr → String
  | .addAcc imm => "ADD ACC, " ++ hexLiteral imm
  | .pushAcc => "PUSH " ++ Reg.acc.name
  | .pushCnt => "PUSH " ++ Reg.cnt.name
  | .pushDat => "PUSH " ++ Reg.dat.name
  | .pushBas => "PUSH " ++ Reg.bas.name
  | .pushSp => "PUSH " ++ Reg.sp.name
  | .pushBp => "PUSH " ++ Reg.bp.name
  | .pushSi => "PUSH " ++ Reg.si.name
  | .pushDi => "PUSH " ++ Reg.di.name
  | .popAcc => "POP " ++ Reg.acc.name
  | .popCnt => "POP " ++ Reg.cnt.name
  | .popDat => "POP " ++ Reg.dat.name
  | .popBas => "POP " ++ Reg.bas.name
  | .popSp => "POP " ++ Reg.sp.name
  | .popBp => "POP " ++ Reg.bp.name
  | .popSi => "POP " ++ Reg.si.name
  | .popDi => "POP " ++ Reg.di.name
  | .opsize => "OPSIZE"
  | .adsize => "ADSIZE"
  | .nop => "NOP"
  | .movAcc imm => "MOV " ++ Reg.acc.name ++ ", " ++ hexLiteral imm
  | .movCnt imm => "MOV " ++ Reg.cnt.name ++ ", " ++ hexLiteral imm
  | .movDat imm => "MOV " ++ Reg.dat.name ++ ", " ++ hexLiteral imm
  | .movBas imm => "MOV " ++ Reg.bas.name ++ ", " ++ hexLiteral imm
  | .movSp imm => "MOV " ++ Reg.sp.name ++ ", " ++ hexLiteral imm
  | .movBp imm => "MOV " ++ Reg.bp.name ++ ", " ++ hexLiteral imm
  | .movSi imm => "MOV " ++ Reg.si.name ++ ", " ++ hexLiteral imm
  | .movDi imm => "MOV " ++ Reg.di.name ++ ", " ++ hexLiteral imm
  | .ret => "RET"
  | .call rel => "CALL " ++ hexLiteral (next + rel)
  | .jmp rel => "JMP " ++ hexLiteral (next + rel)
  | .hlt => "HLT"

end Sys2Proof
end

