-- ==== Sys2Proof/WellFormed.lean ====
section
/-! DEFINITION. Which terms stand for instructions of the machine. Every `Instr` does: "every bit of
every in-scope instruction is either opcode, register index, or immediate/displacement data, and all
`2^32` immediate values are legal" (R103), so the one check is on the instruction of a whole step. -/

namespace Sys2Proof

/-- A step's instruction ends in an opcode that is not itself a prefix byte: the prefix loop leaves
only on a byte that is "not a prefix value" (R143). -/
def StepCode.wf (c : StepCode) : Bool := !c.core.isPrefix

end Sys2Proof
end

