-- ==== Sys2Proof/Decode.lean ====
section
/-! DEFINITION. Decoding and encoding (spec/30_encoding.md): the opcode map R100 over the
open bytes of R7, the length rule R102, decoding of byte lists that refuses by name, and the encoder
written from the same tables. -/

namespace Sys2Proof

/-! ### Byte order (R66): least significant byte first -/

/-- Two consecutive bytes as a 16-bit value (R64, `n = 2`). -/
def le16 (b0 b1 : Byte) : Half := b1 ++ b0

/-- Four consecutive bytes as a 32-bit value (R64, `n = 4`; R99). -/
def le32 (b0 b1 b2 b3 : Byte) : Word := b3 ++ b2 ++ b1 ++ b0

/-- The two bytes of a 16-bit value, lowest address first (R65). -/
def bytes16 (v : Half) : List Byte := [v.extractLsb' 0 8, v.extractLsb' 8 8]

/-- The four bytes of a 32-bit value, lowest address first (R65, R94). -/
def bytes32 (v : Word) : List Byte :=
  [v.extractLsb' 0 8, v.extractLsb' 8 8, v.extractLsb' 16 8, v.extractLsb' 24 8]

/-! ### Register field (R21, R93) -/

/-- The eight registers in index order (R21). -/
def Reg.all : List Reg := [.acc, .cnt, .dat, .bas, .sp, .bp, .si, .di]

/-- The register a 3-bit index names (R21). -/
def Reg.ofBits (r : BitVec 3) : Reg :=
  match r.toNat with
  | 0 => .acc
  | 1 => .cnt
  | 2 => .dat
  | 3 => .bas
  | 4 => .sp
  | 5 => .bp
  | 6 => .si
  | _ => .di

/-- A register's index (R21). -/
def Reg.bits : Reg → BitVec 3
  | .acc => 0
  | .cnt => 1
  | .dat => 2
  | .bas => 3
  | .sp => 4
  | .bp => 5
  | .si => 6
  | .di => 7

/-- The opcode byte of an 8-opcode group: base plus register index (R145, R192, R194). On a base that
is a multiple of 8 that is base in bits 7:3 and register in bits 2:0 (R93, R94). -/
def groupByte (base : Byte) (r : Reg) : Byte := base + r.bits.setWidth 8

/-! ### The opcode map -/

/-- Every row: the two prefixes, which are looked for first (R143), then the rest in R145's order. -/
def Opcode.all : List Opcode :=
  [.override .opsize, .override .adsize, .nop] ++ Reg.all.map .mov ++ [.addAcc, .jmp, .call, .ret]
    ++ Reg.all.map .push ++ Reg.all.map .pop ++ [.hlt]

/-- The byte of a row (R100, R101, R145). -/
def Config.Opcodes.byteOf (o : Config.Opcodes) : Opcode → Byte
  | .override .opsize => o.pfxOpsize
  | .override .adsize => o.pfxAddrsize
  | .nop => o.nop
  | .mov r => groupByte Config.opcMovBase r
  | .addAcc => Config.opcAddAccImm
  | .jmp => o.jmpRel32
  | .call => o.callRel32
  | .ret => o.ret
  | .push r => groupByte o.pushBase r
  | .pop r => groupByte o.popBase r
  | .hlt => o.hlt

/-- Open bytes that make an opcode map (DEDUCED, log entry 39): no byte is given to two rows, so that
"the opcode alone decides" (R102), and the group bases leave bits 2:0 to the register (R93). -/
abbrev Config.Opcodes.legal (o : Config.Opcodes) : Prop :=
  (Opcode.all.map o.byteOf).Nodup ∧ o.pushBase.extractLsb' 0 3 = 0 ∧ o.popBase.extractLsb' 0 3 = 0

/-- The row an opcode byte selects, `none` for an unassigned one: "a lookup table keyed by opcode
byte" (R145, R103). -/
def Config.Opcodes.rowOf (o : Config.Opcodes) (b : Byte) : Option Opcode :=
  Opcode.all.find? fun k => o.byteOf k == b

/-- The prefix of a row, if it is one (R101). -/
def Opcode.override? : Opcode → Option Override
  | .override p => some p
  | .nop => none
  | .mov _ => none
  | .addAcc => none
  | .jmp => none
  | .call => none
  | .ret => none
  | .push _ => none
  | .pop _ => none
  | .hlt => none

/-- The prefix a byte in opcode position stands for, if it is one (R101). -/
def Config.Opcodes.prefixOf (o : Config.Opcodes) (b : Byte) : Option Override :=
  (o.rowOf b).bind Opcode.override?

/-- "the opcode alone decides whether 4 more bytes follow" (R102): formats I32, RI32 and D32. -/
def Opcode.hasImm32 : Opcode → Bool
  | .override _ => false
  | .nop => false
  | .mov _ => true
  | .addAcc => true
  | .jmp => true
  | .call => true
  | .ret => false
  | .push _ => false
  | .pop _ => false
  | .hlt => false

/-- A row with its operand, where its format has one (R94, R95, R100). -/
def Opcode.instr (k : Opcode) (operand : Word) : Instr :=
  match k with
  | .override p => p.toInstr
  | .nop => .nop
  | .mov r => Instr.mov r operand
  | .addAcc => .addAcc operand
  | .jmp => .jmp operand
  | .call => .call operand
  | .ret => .ret
  | .push r => Instr.push r
  | .pop r => Instr.pop r
  | .hlt => .hlt

/-! ### Decoding byte lists -/

/-- Why bytes do not decode. -/
inductive DecodeError
  /-- There is no byte in opcode position. -/
  | noOpcode
  /-- The byte in opcode position is unassigned (R103). -/
  | unassigned (opcode : Byte)
  /-- Fewer than 4 bytes follow an opcode that takes a 32-bit operand (R90, R102). -/
  | truncated (opcode : Byte)
deriving DecidableEq, Repr

/-- One table row (an instruction, or a prefix byte) from the front of a byte list, with the bytes
left over (R90 to R95). -/
def decode (o : Config.Opcodes) : List Byte → Except DecodeError (Instr × List Byte)
  | [] => .error .noOpcode
  | b :: rest =>
    match o.rowOf b with
    | none => .error (.unassigned b)
    | some k =>
      match k.hasImm32, rest with
      | false, _ => .ok (k.instr 0, rest)
      | true, i0 :: i1 :: i2 :: i3 :: rest' => .ok (k.instr (le32 i0 i1 i2 i3), rest')
      | true, _ => .error (.truncated b)

/-- The instruction of one whole step, prefixes included, from the front of a byte list: "skip bytes
while the byte is one of the two prefix values; the next byte is the opcode" (R102). -/
def decodeStep (o : Config.Opcodes) : List Byte → Except DecodeError (StepCode × List Byte)
  | [] => .error .noOpcode
  | b :: rest =>
    match o.prefixOf b with
    | some p =>
      match decodeStep o rest with
      | .ok (c, rest') => .ok ({ c with prefixes := p :: c.prefixes }, rest')
      | .error e => .error e
    | none =>
      match decode o (b :: rest) with
      | .ok (i, rest') => .ok ({ prefixes := [], core := i }, rest')
      | .error e => .error e

/-! ### Encoding -/

/-- The bytes of prefixes (R101). -/
def prefixBytes (o : Config.Opcodes) (ps : List Override) : List Byte :=
  ps.map fun p => o.byteOf (.override p)

/-- The bytes of a table row (R92 to R95, R100). -/
def encode (o : Config.Opcodes) : Instr → List Byte
  | .addAcc imm => o.byteOf .addAcc :: bytes32 imm
  | .pushAcc => [o.byteOf (.push .acc)]
  | .pushCnt => [o.byteOf (.push .cnt)]
  | .pushDat => [o.byteOf (.push .dat)]
  | .pushBas => [o.byteOf (.push .bas)]
  | .pushSp => [o.byteOf (.push .sp)]
  | .pushBp => [o.byteOf (.push .bp)]
  | .pushSi => [o.byteOf (.push .si)]
  | .pushDi => [o.byteOf (.push .di)]
  | .popAcc => [o.byteOf (.pop .acc)]
  | .popCnt => [o.byteOf (.pop .cnt)]
  | .popDat => [o.byteOf (.pop .dat)]
  | .popBas => [o.byteOf (.pop .bas)]
  | .popSp => [o.byteOf (.pop .sp)]
  | .popBp => [o.byteOf (.pop .bp)]
  | .popSi => [o.byteOf (.pop .si)]
  | .popDi => [o.byteOf (.pop .di)]
  | .opsize => [o.byteOf (.override .opsize)]
  | .adsize => [o.byteOf (.override .adsize)]
  | .nop => [o.byteOf .nop]
  | .movAcc imm => o.byteOf (.mov .acc) :: bytes32 imm
  | .movCnt imm => o.byteOf (.mov .cnt) :: bytes32 imm
  | .movDat imm => o.byteOf (.mov .dat) :: bytes32 imm
  | .movBas imm => o.byteOf (.mov .bas) :: bytes32 imm
  | .movSp imm => o.byteOf (.mov .sp) :: bytes32 imm
  | .movBp imm => o.byteOf (.mov .bp) :: bytes32 imm
  | .movSi imm => o.byteOf (.mov .si) :: bytes32 imm
  | .movDi imm => o.byteOf (.mov .di) :: bytes32 imm
  | .ret => [o.byteOf .ret]
  | .call rel => o.byteOf .call :: bytes32 rel
  | .jmp rel => o.byteOf .jmp :: bytes32 rel
  | .hlt => [o.byteOf .hlt]

/-- The bytes of a step's instruction: its prefixes, then its opcode and operand (R90). -/
def encodeStep (o : Config.Opcodes) (c : StepCode) : List Byte :=
  prefixBytes o c.prefixes ++ encode o c.core

/-- The displacement that makes a JMP or CALL at `addr`, behind `p` prefix bytes counted from
`addr`, reach `target`: `rel32 = (target - (addr + 5 + p)) mod 2^32` (R110). -/
def relTo (addr target : Word) (p : Nat) : Word := target - (addr + 5 + BitVec.ofNat 32 p)

/-! ### Table words -/

/-- The bytes of a table word of `nbits` bits, bit 0 the least significant bit of the first byte,
zero above `nbits`, up to the longest table row (5 bytes, R91). -/
def tableBytes (nbits w : Nat) : List Byte :=
  [0, 1, 2, 3, 4].map fun k => if k < nbits / 8 then BitVec.ofNat 8 (w / 2 ^ (8 * k)) else 0

/-- The instruction the decoder reads from a table word, under the default bytes that
spec/opcode_table.json is written with (log entry 1). -/
def decodeTableWord (nbits w : Nat) : Option Instr :=
  match decode Config.defaultOpcodes (tableBytes nbits w) with
  | .ok (i, _) => some i
  | .error _ => none

end Sys2Proof
end

