-- ==== Sys2Proof/Machine/State.lean ====
section
/-! DEFINITION. The state of one core (spec/10_state.md, R12), the failures it can raise
(spec/60_exceptions.md), and the state right after reset (R47). Everything is plain data. -/

namespace Sys2Proof.Machine

/-! ### Failures -/

/-- The taxonomy of failures, complete (R210). -/
inductive FailureKind
  /-- Memory access outside the buffer. -/
  | outOfBounds
  /-- Opcode byte not in the dispatch table. -/
  | unsupportedOpcode
  /-- ModRM combination requiring SIB or register-direct addressing. -/
  | unsupportedAddressingMode
  /-- Run loop exhausted its budget without halting. -/
  | stepLimitExceeded
  /-- Malformed MZ or extended-header signature. -/
  | invalidHeader
  /-- Target class not supported. -/
  | unsupported64Bit
deriving DecidableEq, Repr

/-- A failure with its payload, as raised by a step or by `run` (R210 to R215). A failed access is
the host's event: nothing is delivered to the emulated program. -/
inductive Failure
  /-- R212, R69: the first byte address of the attempted access and its width. Raised by Memory on
  any access that leaves `[0, N)`; the address is an integer because a host call may pass a negative
  one (R62). Safe: the spec's own failure. -/
  | outOfBounds (addr : Int) (width : Nat)
  /-- R213, R203: the opcode byte and the address it was fetched from. Raised by dispatch on an
  unassigned byte. Safe: the spec's own failure. -/
  | unsupportedOpcode (opcode : Byte) (addr : Word)
  /-- R214, R130: the ModRM fields. Raised by `effectiveAddress`, which no instruction calls (R133).
  Safe: the spec's own failure. -/
  | unsupportedAddressingMode (mod : BitVec 2) (rm : BitVec 3)
  /-- R215, R153: the steps done by this call of `run`. Raised by `run` alone. Safe: the spec's own
  failure. -/
  | stepLimitExceeded (count : Nat)
deriving DecidableEq, Repr

/-- A failure of the Loader (R216, R217, R263). No payload: none is defined (R211, U21). -/
inductive LoadFailure
  /-- A section copy that would run past either buffer (R263). -/
  | outOfBounds
  /-- A bad signature, or a header field that lies partly outside the buffer (R257, R258, R256). -/
  | invalidHeader
  /-- A target-class field that is not the 32-bit value (R259). -/
  | unsupported64Bit
deriving DecidableEq, Repr

/-! ### Pieces of the state -/

/-- The eight general registers, each 32 bits (R20, R21). R22: "a model may hold eight 32-bit values
instead and define the views by bit slices". -/
structure Regs where
  acc : Word
  cnt : Word
  dat : Word
  bas : Word
  sp : Word
  bp : Word
  si : Word
  di : Word
deriving DecidableEq, Repr

/-- "nine independently held boolean flags" (R31): CF PF AF ZF SF TF IF DF OF in that order. -/
structure Flags where
  carry : Bool
  parity : Bool
  adjust : Bool
  zero : Bool
  sign : Bool
  trap : Bool
  interruptEnable : Bool
  direction : Bool
  overflow : Bool
deriving DecidableEq, Repr

/-- An override toggle's value: "16 vs 32 bits" (R41). -/
inductive Toggle
  | bits16
  | bits32
deriving DecidableEq, Repr

/-- Memory: "byte-addressable buffer of fixed capacity N (bytes)" (R60). The bytes are held as a
list of the ones that differ from `Config.memoryFill`, at strictly rising addresses. -/
structure Memory where
  /-- `N`, fixed when the core is created. -/
  size : Nat
  cells : List Host.Cell
deriving DecidableEq, Repr

/-- A host callback, as an opaque token: what it does is host behaviour (R229, D32). -/
abbrev HookId := Nat

/-- The four hook slots, each empty or holding a host callback (R42). -/
structure Hooks where
  onHalt : Option HookId
  onError : Option HookId
  onDebug : Option HookId
  onOutput : Option HookId
deriving DecidableEq, Repr

/-- A call the core made to the host (R226, R227). `onDebug` has no specified calls and `onOutput`
is never called (R228, R229). -/
inductive HookCall
  | onHalt (callback : HookId)
  | onError (callback : HookId) (failure : Failure)
deriving DecidableEq, Repr

/-- The whole state of one core (R12, R20 to R42, R60). -/
structure State where
  /-- `x[0]` to `x[7]` (R20). -/
  regs : Regs
  /-- The instruction pointer, "not part of the eight" (R28). -/
  ip : Word
  /-- The nine flags (R31). -/
  flags : Flags
  /-- Written by `run` alone (R39). -/
  running : Bool
  /-- Set by HLT, cleared by reset alone (R40). -/
  halted : Bool
  /-- The operand-size toggle (R41). -/
  opsize : Toggle
  /-- The address-size toggle (R41). -/
  addrsize : Toggle
  /-- The hook registrations (R42). -/
  hooks : Hooks
  /-- Memory with its capacity (R60). -/
  mem : Memory
  /-- The open parameters this core was created with (R7): never written. -/
  params : Config.Params
  /-- The calls made to host hooks so far, oldest first. The MODEL's own field: it makes "called
  exactly once" (R201) something a claim can say. Nothing reads it. -/
  hookCalls : List HookCall
deriving DecidableEq, Repr

/-! ### How a step can stop -/

/-- Why a step gives no next state. -/
inductive Fault
  /-- The step raised a failure of the spec (R9 `raise`, R222); `left` is the state it leaves:
  "exactly the state left by the sub-operations that completed before the `raise`". Raised by the
  fetches, by dispatch on an unassigned byte and by the stack accesses. Safe: the spec's own
  failures. -/
  | raised (failure : Failure) (left : State)
  /-- The prefix loop never meets an opcode byte: `N = 2^32` and every byte of Memory is a prefix
  (R147, U18). Raised by the fetch of an instruction. Safe: the hardware never ends that step. -/
  | endlessPrefixes
deriving DecidableEq, Repr

/-- Why the model gives a step no meaning. -/
inductive Refusal
  /-- Raised by an arm of `exec` whose instruction has no meaning yet. Safe. -/
  | notModelled (mnemonic : String)
  /-- Raised by dispatch while a toggle is 16, on a core created with
  `OPSIZE16_POLICY = refuse` only (R149, D7). Safe: that policy gives such a step no meaning. -/
  | dispatchUnder16BitToggle
deriving DecidableEq, Repr

/-! ### Reset -/

/-- All registers zero (R47, D25). -/
def Regs.zero : Regs :=
  { acc := 0, cnt := 0, dat := 0, bas := 0, sp := 0, bp := 0, si := 0, di := 0 }

/-- All flags zero (R47, D25). -/
def Flags.clear : Flags :=
  { carry := false, parity := false, adjust := false, zero := false, sign := false, trap := false,
    interruptEnable := false, direction := false, overflow := false }

/-- No hook registered (R47, D25). -/
def Hooks.empty : Hooks := { onHalt := none, onError := none, onDebug := none, onOutput := none }

/-- Reset is "the creation of a CPU instance" (R250): a core of capacity `n` with the given
parameters, every field as the "After reset" column of R47 says. -/
def State.create (params : Config.Params) (n : Nat) : State :=
  { regs := Regs.zero
    ip := 0
    flags := Flags.clear
    running := false
    halted := false
    opsize := .bits32
    addrsize := .bits32
    hooks := Hooks.empty
    mem := { size := n, cells := [] }
    params := params
    hookCalls := [] }

/-- The machine right after reset, with the default parameters and the capacity of log entry 4. -/
def State.reset : State := State.create Config.defaultParams Config.resetMemSize

end Sys2Proof.Machine
end

