-- ==== Sys2Proof/Machine/Ops.lean ====
section
/-! DEFINITION. The named operations over memory and registers: Memory access (spec/20_memory.md),
register and `ip` access, fetch-and-advance (R120 to R122), the stack primitives (R190, R191),
raising a failure and delivering one (R222, R223), and the hook calls (R226, R227). -/

namespace Sys2Proof.Machine

/-! ### Memory -/

/-- The byte a cell list holds at an address; an unlisted address reads as `Config.memoryFill`. -/
def lookupCell : List Host.Cell → Nat → Byte
  | [], _ => Config.memoryFill
  | (a, v) :: rest, x => if a = x then v else lookupCell rest x

/-- Put a byte into a cell list at its place in the address order. -/
def insertCell (x : Nat) (v : Byte) : List Host.Cell → List Host.Cell
  | [] => [(x, v)]
  | (a, w) :: rest =>
    if x < a then (x, v) :: (a, w) :: rest
    else if x = a then (x, v) :: rest
    else (a, w) :: insertCell x v rest

/-- Write one byte of a cell list; writing the fill value removes the entry. -/
def storeCell (x : Nat) (v : Byte) (cells : List Host.Cell) : List Host.Cell :=
  if v = Config.memoryFill then cells.filter (fun c => c.1 != x) else insertCell x v cells

/-- The canonical form: addresses strictly rising and inside `[0, N)`, no entry equal to the fill
value, and `N <= 2^32` (R60). -/
abbrev Memory.wf (m : Memory) : Prop :=
  m.cells.Pairwise (fun c d => c.1 < d.1)
    ∧ (∀ c ∈ m.cells, c.2 ≠ Config.memoryFill ∧ c.1 < m.size)
    ∧ m.size ≤ 2 ^ 32

/-- The byte at an address (R60, R71). -/
def Memory.byteAt (m : Memory) (a : Nat) : Byte := lookupCell m.cells a

/-- Write one byte. -/
def Memory.putByte (m : Memory) (a : Nat) (v : Byte) : Memory :=
  { m with cells := storeCell a v m.cells }

/-- Write consecutive bytes from an address up (R65). -/
def Memory.putBytes (m : Memory) (a : Nat) : List Byte → Memory
  | [] => m
  | v :: vs => (m.putByte a v).putBytes (a + 1) vs

/-- Consecutive bytes from an address up. -/
def Memory.bytesFrom (m : Memory) (a : Nat) : Nat → List Byte
  | 0 => []
  | n + 1 => m.byteAt a :: m.bytesFrom (a + 1) n

/-- The bounds test of every access, on the unbounded sum (R62): "any `addr` with `addr + n <= N` is
legal" (R68). -/
def Memory.inBounds (m : Memory) (a width : Nat) : Bool := decide (a + width ≤ m.size)

/-- An access of `width` bytes at `a`: its result, or `OutOfBounds(a, width)` before any byte is
touched (R62, R63, R69). -/
def Memory.access {α : Type} (m : Memory) (a width : Nat) (result : α) : Except Failure α :=
  if m.inBounds a width then .ok result else .error (.outOfBounds a width)

/-- `MemRead(addr, 1)` (R64). -/
def Memory.read8 (m : Memory) (a : Nat) : Except Failure Byte := m.access a 1 (m.byteAt a)

/-- `MemRead(addr, 2)` (R64). -/
def Memory.read16 (m : Memory) (a : Nat) : Except Failure Half :=
  m.access a 2 (le16 (m.byteAt a) (m.byteAt (a + 1)))

/-- `MemRead(addr, 4)` (R64). -/
def Memory.read32 (m : Memory) (a : Nat) : Except Failure Word :=
  m.access a 4 (le32 (m.byteAt a) (m.byteAt (a + 1)) (m.byteAt (a + 2)) (m.byteAt (a + 3)))

/-- `MemWrite(addr, 1, v)` (R65). -/
def Memory.write8 (m : Memory) (a : Nat) (v : Byte) : Except Failure Memory :=
  m.access a 1 (m.putBytes a [v])

/-- `MemWrite(addr, 2, v)` (R65). -/
def Memory.write16 (m : Memory) (a : Nat) (v : Half) : Except Failure Memory :=
  m.access a 2 (m.putBytes a (bytes16 v))

/-- `MemWrite(addr, 4, v)` (R65). -/
def Memory.write32 (m : Memory) (a : Nat) (v : Word) : Except Failure Memory :=
  m.access a 4 (m.putBytes a (bytes32 v))

/-! ### Registers -/

/-- `x[i]` (R20). -/
def Regs.get (g : Regs) : Reg → Word
  | .acc => g.acc
  | .cnt => g.cnt
  | .dat => g.dat
  | .bas => g.bas
  | .sp => g.sp
  | .bp => g.bp
  | .si => g.si
  | .di => g.di

/-- `x[i] <- v` (R20): all 32 bits replaced. -/
def Regs.set (g : Regs) (r : Reg) (v : Word) : Regs :=
  match r with
  | .acc => { g with acc := v }
  | .cnt => { g with cnt := v }
  | .dat => { g with dat := v }
  | .bas => { g with bas := v }
  | .sp => { g with sp := v }
  | .bp => { g with bp := v }
  | .si => { g with si := v }
  | .di => { g with di := v }

/-- Replace the register bank. -/
def State.setRegs (s : State) (g : Regs) : State := { s with regs := g }
/-- `ip <- v` (R28). -/
def State.setIp (s : State) (v : Word) : State := { s with ip := v }
/-- Replace the flags. -/
def State.setFlags (s : State) (f : Flags) : State := { s with flags := f }
/-- Write `running` (R39). -/
def State.setRunning (s : State) (b : Bool) : State := { s with running := b }
/-- Write `halted` (R40). -/
def State.setHalted (s : State) (b : Bool) : State := { s with halted := b }
/-- Write the operand-size toggle (R41). -/
def State.setOpsize (s : State) (t : Toggle) : State := { s with opsize := t }
/-- Write the address-size toggle (R41). -/
def State.setAddrsize (s : State) (t : Toggle) : State := { s with addrsize := t }
/-- Replace the hook registrations (R42). -/
def State.setHooks (s : State) (h : Hooks) : State := { s with hooks := h }
/-- Replace Memory. -/
def State.setMem (s : State) (m : Memory) : State := { s with mem := m }
/-- Record a call to a host hook. -/
def State.addCall (s : State) (c : HookCall) : State := { s with hookCalls := s.hookCalls ++ [c] }

/-- `x[r]` (R20). -/
def State.readReg (s : State) (r : Reg) : Word := s.regs.get r
/-- `x[r] <- v` (R20). -/
def State.writeReg (s : State) (r : Reg) (v : Word) : State := s.setRegs (s.regs.set r v)

/-- `32 -> 16`, `16 -> 32` (R41, R143). -/
def Toggle.flip : Toggle → Toggle
  | .bits16 => .bits32
  | .bits32 => .bits16

/-- What a prefix byte does: it flips its toggle (R143). -/
def State.flipToggle (s : State) : Override → State
  | .opsize => s.setOpsize s.opsize.flip
  | .adsize => s.setAddrsize s.addrsize.flip

/-- The toggles after a run of prefix bytes, first to last (R143, R101). -/
def State.flipToggles (s : State) (ps : List Override) : State := ps.foldl State.flipToggle s

/-! ### Sub-operations that can raise a failure -/

/-- The end of a sub-operation: a value and the state, or a failure and the state it leaves (R222:
nothing already done is undone). -/
inductive Attempt (α : Type)
  | done (value : α) (s : State)
  | failed (failure : Failure) (left : State)
deriving DecidableEq, Repr

/-- `fetch8()` (R120): the read first, the advance second. -/
def fetch8 (s : State) : Attempt Byte :=
  match s.mem.read8 s.ip.toNat with
  | .ok v => .done v (s.setIp (s.ip + 1))
  | .error f => .failed f s

/-- `fetch16()` (R121). No instruction uses it. -/
def fetch16 (s : State) : Attempt Half :=
  match s.mem.read16 s.ip.toNat with
  | .ok v => .done v (s.setIp (s.ip + 2))
  | .error f => .failed f s

/-- `fetch32()` (R122). -/
def fetch32 (s : State) : Attempt Word :=
  match s.mem.read32 s.ip.toNat with
  | .ok v => .done v (s.setIp (s.ip + 4))
  | .error f => .failed f s

/-- The address `push32` stores to: the decremented stack pointer, modulo `2^32` (R190, D15). -/
def pushSlot (s : State) : Word := s.readReg .sp - 4

/-- `push32(v)` (R190): decrement modulo `2^32`, then `MemWrite`; a failed store leaves the decrement.
The test of R62 alone decides the write, as ruling C5 has it for wrapped stack pointer arithmetic: at
`x[4] = 0` it fails for every `N < 2^32`, and at `N = 2^32` it passes (DEDUCED: log entry 6). -/
def push32 (v : Word) (s : State) : Attempt Unit :=
  let t := s.writeReg .sp (pushSlot s)
  match t.mem.write32 (t.readReg .sp).toNat v with
  | .ok m => .done () (t.setMem m)
  | .error f => .failed f t

/-- `pop32()` (R191): load, then increment. -/
def pop32 (s : State) : Attempt Word :=
  match s.mem.read32 (s.readReg .sp).toNat with
  | .ok v => .done v (s.writeReg .sp (s.readReg .sp + 4))
  | .error f => .failed f s

/-! ### Failures -/

/-- Raise a failure (R9 `raise`): the step is abandoned and the state stays as it is. "no state is
saved anywhere, no mode changes, control goes nowhere inside the emulated program" (R223). There is
no return from it (R225). -/
def raise (f : Failure) (left : State) : Host.Outcome State Fault Refusal := .fault (.raised f left)

/-- The end of an instruction whose last sub-operation yields nothing: the next state, or its
failure. -/
def Attempt.outcome (a : Attempt Unit) : Host.Outcome State Fault Refusal :=
  match a with
  | .done _ s => .next s
  | .failed f left => raise f left

/-- How a call of `run` ends (R276), or that it does not. -/
inductive RunEnd
  /-- `run` returns normally to its caller. -/
  | returned (s : State)
  /-- `run` ends by raising a failure to its caller. -/
  | raised (failure : Failure) (s : State)
  /-- A step of it never ends (R147). -/
  | endless
  /-- A step of it has no meaning. -/
  | noMeaning (reason : Refusal)
deriving DecidableEq, Repr

/-- Delivery of a failure inside `run` (R223): clear `running`, then call `onError` and return, or
raise the failure to the caller. -/
def deliver (f : Failure) (s : State) : RunEnd :=
  let t := s.setRunning false
  match t.hooks.onError with
  | some h => .returned (t.addCall (.onError h f))
  | none => .raised f t

/-- "invoke the halt hook if registered" (R200, R226). -/
def callOnHalt (s : State) : State :=
  match s.hooks.onHalt with
  | some h => s.addCall (.onHalt h)
  | none => s

/-- The kind of a failure (R210). -/
def Failure.kind : Failure → FailureKind
  | .outOfBounds _ _ => .outOfBounds
  | .unsupportedOpcode _ _ => .unsupportedOpcode
  | .unsupportedAddressingMode _ _ => .unsupportedAddressingMode
  | .stepLimitExceeded _ => .stepLimitExceeded

/-- The kind of a Loader failure (R210). -/
def LoadFailure.kind : LoadFailure → FailureKind
  | .outOfBounds => .outOfBounds
  | .invalidHeader => .invalidHeader
  | .unsupported64Bit => .unsupported64Bit

/-- The fault-code output of R211; 0 stands for no failure. -/
def FailureKind.code : FailureKind → Nat
  | .outOfBounds => 1
  | .unsupportedOpcode => 2
  | .unsupportedAddressingMode => 3
  | .stepLimitExceeded => 4
  | .invalidHeader => 5
  | .unsupported64Bit => 6

end Sys2Proof.Machine
end

