-- ==== Sys2Proof/Machine/Flags.lean ====
section
/-! DEFINITION. Every flag computation of the spec: the packed flags word (R32 to R35), the zero/sign
setters (R36, R37), and the ALU adder with the flag update of ADD (R170, R171). -/

namespace Sys2Proof.Machine

/-- `getPackedFlags()` as R33 writes it:
`CF*2^0 + PF*2^2 + AF*2^4 + ZF*2^6 + SF*2^7 + TF*2^8 + IF*2^9 + DF*2^10 + OF*2^11`. -/
def Flags.pack (f : Flags) : Word :=
  BitVec.ofNat 32
    (f.carry.toNat * 2 ^ 0 + f.parity.toNat * 2 ^ 2 + f.adjust.toNat * 2 ^ 4 + f.zero.toNat * 2 ^ 6
      + f.sign.toNat * 2 ^ 7 + f.trap.toNat * 2 ^ 8 + f.interruptEnable.toNat * 2 ^ 9
      + f.direction.toNat * 2 ^ 10 + f.overflow.toNat * 2 ^ 11)

/-- `setPackedFlags(word)` (R34): all nine at once, every other bit ignored. -/
def Flags.unpack (w : Word) : Flags :=
  { carry := w.getLsbD 0
    parity := w.getLsbD 2
    adjust := w.getLsbD 4
    zero := w.getLsbD 6
    sign := w.getLsbD 7
    trap := w.getLsbD 8
    interruptEnable := w.getLsbD 9
    direction := w.getLsbD 10
    overflow := w.getLsbD 11 }

/-- `setZS32(v)` for any integer `v` (R36): ZF and SF of `v mod 2^32`, no other flag. -/
def Flags.setZS32 (f : Flags) (v : Int) : Flags :=
  { f with zero := BitVec.ofInt 32 v == 0, sign := (BitVec.ofInt 32 v).getLsbD 31 }

/-- `setZS8(v)` for any integer `v` (R37). No instruction uses it. -/
def Flags.setZS8 (f : Flags) (v : Int) : Flags :=
  { f with zero := BitVec.ofInt 8 v == 0, sign := (BitVec.ofInt 8 v).getLsbD 7 }

/-- The ALU adder (R170): the exact sum, narrowed to 32 bits, and the carry out of bit 31. -/
def adder (a b : Word) : Word × Bool :=
  let t := a.toNat + b.toNat
  (BitVec.ofNat 32 t, decide (2 ^ 32 ≤ t))

/-- The flags after ADD (R171): CF is the carry, ZF and SF come from the result, the other six keep
their values (R172). -/
def Flags.afterAdd (f : Flags) (res : Word) (carry : Bool) : Flags :=
  ({ f with carry := carry }).setZS32 res.toNat

end Sys2Proof.Machine
end

