-- ==== Sys2Proof/Machine/Alu.lean ====
section
/-! DEFINITION. ADD ACC, imm32 (spec/43_add.md). -/

namespace Sys2Proof.Machine

/-- R171: the accumulator takes the sum, CF the carry, ZF and SF come from the result. -/
def execAddAcc (imm : Word) (s : State) : Host.Outcome State Fault Refusal :=
  let (res, carry) := adder (s.readReg .acc) imm
  .next ((s.writeReg .acc res).setFlags (s.flags.afterAdd res carry))

end Sys2Proof.Machine
end

