-- ==== Sys2Proof/Machine/Control.lean ====
section
/-! DEFINITION. JMP rel32, CALL rel32 and RET (spec/44_control_transfer.md). `ip` is already the
address of the following instruction when a meaning runs (R30). -/

namespace Sys2Proof.Machine

/-- R180: `ip <- (ip + rel) mod 2^32`; the target is not checked. -/
def execJmp (rel : Word) (s : State) : Host.Outcome State Fault Refusal :=
  .next (s.setIp (s.ip + rel))

/-- R181: push the return address, then jump; a failed push leaves `ip` at the return address. -/
def execCall (rel : Word) (s : State) : Host.Outcome State Fault Refusal :=
  match push32 s.ip s with
  | .done _ t => .next (t.setIp (s.ip + rel))
  | .failed f left => raise f left

/-- R182: pop a value and set `ip` to it. -/
def execRet (s : State) : Host.Outcome State Fault Refusal :=
  match pop32 s with
  | .done v t => .next (t.setIp v)
  | .failed f left => raise f left

end Sys2Proof.Machine
end

