-- ==== Sys2Proof/Machine/Move.lean ====
section
/-! DEFINITION. NOP and the eight MOV r32, imm32 (spec/42_nop_mov.md). A meaning runs after the
instruction's bytes have been fetched: `ip` is the address of the following instruction (R30). -/

namespace Sys2Proof.Machine

/-- R160: "no-operation: no state change". -/
def execNop (s : State) : Host.Outcome State Fault Refusal := .next s

/-- R161: `x[r] <- imm`, all 32 bits replaced, no flag written. -/
def movImm (r : Reg) (imm : Word) (s : State) : Host.Outcome State Fault Refusal :=
  .next (s.writeReg r imm)

/-- R161, `r = 0`. -/
def execMovAcc (imm : Word) (s : State) : Host.Outcome State Fault Refusal := movImm .acc imm s
/-- R161, `r = 1`. -/
def execMovCnt (imm : Word) (s : State) : Host.Outcome State Fault Refusal := movImm .cnt imm s
/-- R161, `r = 2`. -/
def execMovDat (imm : Word) (s : State) : Host.Outcome State Fault Refusal := movImm .dat imm s
/-- R161, `r = 3`. -/
def execMovBas (imm : Word) (s : State) : Host.Outcome State Fault Refusal := movImm .bas imm s
/-- R161, R162, `r = 4`: no special case. -/
def execMovSp (imm : Word) (s : State) : Host.Outcome State Fault Refusal := movImm .sp imm s
/-- R161, `r = 5`. -/
def execMovBp (imm : Word) (s : State) : Host.Outcome State Fault Refusal := movImm .bp imm s
/-- R161, `r = 6`. -/
def execMovSi (imm : Word) (s : State) : Host.Outcome State Fault Refusal := movImm .si imm s
/-- R161, `r = 7`. -/
def execMovDi (imm : Word) (s : State) : Host.Outcome State Fault Refusal := movImm .di imm s

end Sys2Proof.Machine
end

