-- ==== Sys2Proof/Machine/Prefix.lean ====
section
/-! DEFINITION. The two prefix bytes (R143, R144). Each is executed inside the step of the opcode
that follows it, after its byte has been fetched. -/

namespace Sys2Proof.Machine

/-- Operand-size-override: flips `opsize` for good (R143, R144). -/
def execOpsize (s : State) : Host.Outcome State Fault Refusal := .next (s.flipToggle .opsize)

/-- Address-size-override: flips `addrsize` for good (R143, R144). -/
def execAdsize (s : State) : Host.Outcome State Fault Refusal := .next (s.flipToggle .adsize)

end Sys2Proof.Machine
end

