-- ==== Sys2Proof/Machine/Stack.lean ====
section
/-! DEFINITION. The eight PUSH r32 and the eight POP r32 (spec/45_stack.md). -/

namespace Sys2Proof.Machine

/-- The value PUSH stores: `x[r]` "read before the decrement" (R192); with `PUSH_SP_VALUE = new`,
for `r = 4` only, the decremented value (R193). -/
def pushedValue (r : Reg) (s : State) : Word :=
  match s.params.pushSpValue, r with
  | .decremented, .sp => pushSlot s
  | _, r => s.readReg r

/-- R192. -/
def pushReg (r : Reg) (s : State) : Host.Outcome State Fault Refusal :=
  (push32 (pushedValue r s) s).outcome

/-- R194: load, increment, and the register write last (R195 for `r = 4`). -/
def popReg (r : Reg) (s : State) : Host.Outcome State Fault Refusal :=
  match pop32 s with
  | .done v t => .next (t.writeReg r v)
  | .failed f left => raise f left

/-- R192, `r = 0`. -/
def execPushAcc (s : State) : Host.Outcome State Fault Refusal := pushReg .acc s
/-- R192, `r = 1`. -/
def execPushCnt (s : State) : Host.Outcome State Fault Refusal := pushReg .cnt s
/-- R192, `r = 2`. -/
def execPushDat (s : State) : Host.Outcome State Fault Refusal := pushReg .dat s
/-- R192, `r = 3`. -/
def execPushBas (s : State) : Host.Outcome State Fault Refusal := pushReg .bas s
/-- R192, R193, `r = 4`. -/
def execPushSp (s : State) : Host.Outcome State Fault Refusal := pushReg .sp s
/-- R192, `r = 5`. -/
def execPushBp (s : State) : Host.Outcome State Fault Refusal := pushReg .bp s
/-- R192, `r = 6`. -/
def execPushSi (s : State) : Host.Outcome State Fault Refusal := pushReg .si s
/-- R192, `r = 7`. -/
def execPushDi (s : State) : Host.Outcome State Fault Refusal := pushReg .di s

/-- R194, `r = 0`. -/
def execPopAcc (s : State) : Host.Outcome State Fault Refusal := popReg .acc s
/-- R194, `r = 1`. -/
def execPopCnt (s : State) : Host.Outcome State Fault Refusal := popReg .cnt s
/-- R194, `r = 2`. -/
def execPopDat (s : State) : Host.Outcome State Fault Refusal := popReg .dat s
/-- R194, `r = 3`. -/
def execPopBas (s : State) : Host.Outcome State Fault Refusal := popReg .bas s
/-- R194, R195, `r = 4`: afterwards `x[4]` is the loaded value. -/
def execPopSp (s : State) : Host.Outcome State Fault Refusal := popReg .sp s
/-- R194, `r = 5`. -/
def execPopBp (s : State) : Host.Outcome State Fault Refusal := popReg .bp s
/-- R194, `r = 6`. -/
def execPopSi (s : State) : Host.Outcome State Fault Refusal := popReg .si s
/-- R194, `r = 7`. -/
def execPopDi (s : State) : Host.Outcome State Fault Refusal := popReg .di s

end Sys2Proof.Machine
end

