-- ==== Sys2Proof/Machine/System.lean ====
section
/-! DEFINITION. HLT (spec/46_halt_unsupported.md). -/

namespace Sys2Proof.Machine

/-- R200, R201: `halted <- 1`, then `onHalt()` if registered. -/
def execHlt (s : State) : Host.Outcome State Fault Refusal := .next (callOnHalt (s.setHalted true))

end Sys2Proof.Machine
end

