-- ==== Sys2Proof/Machine/Dispatch.lean ====
section
/-! DEFINITION. Dispatch (R145): one arm per row of the opcode table. -/

namespace Sys2Proof.Machine

def exec (i : Instr) (s : State) : Host.Outcome State Fault Refusal :=
  match i with
  | .addAcc imm => Sys2Proof.Machine.execAddAcc imm s
  | .pushAcc => Sys2Proof.Machine.execPushAcc s
  | .pushCnt => Sys2Proof.Machine.execPushCnt s
  | .pushDat => Sys2Proof.Machine.execPushDat s
  | .pushBas => Sys2Proof.Machine.execPushBas s
  | .pushSp => Sys2Proof.Machine.execPushSp s
  | .pushBp => Sys2Proof.Machine.execPushBp s
  | .pushSi => Sys2Proof.Machine.execPushSi s
  | .pushDi => Sys2Proof.Machine.execPushDi s
  | .popAcc => Sys2Proof.Machine.execPopAcc s
  | .popCnt => Sys2Proof.Machine.execPopCnt s
  | .popDat => Sys2Proof.Machine.execPopDat s
  | .popBas => Sys2Proof.Machine.execPopBas s
  | .popSp => Sys2Proof.Machine.execPopSp s
  | .popBp => Sys2Proof.Machine.execPopBp s
  | .popSi => Sys2Proof.Machine.execPopSi s
  | .popDi => Sys2Proof.Machine.execPopDi s
  | .opsize => Sys2Proof.Machine.execOpsize s
  | .adsize => Sys2Proof.Machine.execAdsize s
  | .nop => Sys2Proof.Machine.execNop s
  | .movAcc imm => Sys2Proof.Machine.execMovAcc imm s
  | .movCnt imm => Sys2Proof.Machine.execMovCnt imm s
  | .movDat imm => Sys2Proof.Machine.execMovDat imm s
  | .movBas imm => Sys2Proof.Machine.execMovBas imm s
  | .movSp imm => Sys2Proof.Machine.execMovSp imm s
  | .movBp imm => Sys2Proof.Machine.execMovBp imm s
  | .movSi imm => Sys2Proof.Machine.execMovSi imm s
  | .movDi imm => Sys2Proof.Machine.execMovDi imm s
  | .ret => Sys2Proof.Machine.execRet s
  | .call rel => Sys2Proof.Machine.execCall rel s
  | .jmp rel => Sys2Proof.Machine.execJmp rel s
  | .hlt => Sys2Proof.Machine.execHlt s

end Sys2Proof.Machine
end

