-- ==== Sys2Proof/Machine/Fetch.lean ====
section
/-! DEFINITION. Fetching one step's instruction from Memory: the opcode fetch (R142), the prefix loop
(R143), and the operand fetch of formats I32, RI32 and D32 (R94, R95, R102). -/

namespace Sys2Proof.Machine

/-- How the fetch of a step ends. -/
inductive Fetched
  /-- The instruction, and the state when its EXECUTE phase starts (R30). -/
  | ready (i : Instr) (s : State)
  /-- A failure, and the state it leaves (R222). -/
  | failed (failure : Failure) (left : State)
  /-- A dispatch that `OPSIZE16_POLICY = refuse` gives no meaning (R149). -/
  | noMeaning
  /-- The prefix loop has gone all round a Memory of prefix bytes (R147). -/
  | endless
deriving DecidableEq, Repr

/-- Whether the policy parameter gives a dispatch in this state a meaning (R149, D7). -/
def mayDispatch (s : State) : Bool :=
  s.params.opsize16Policy == .ignore || (s.opsize == .bits32 && s.addrsize == .bits32)

/-- The opcode `b`, fetched from address `a`, is not a prefix: fetch the operand its format has and
give the instruction, or raise `UnsupportedOpcode(b, a)` (R145, R203). -/
def fetchOperand (b : Byte) (a : Word) (s : State) : Fetched :=
  if mayDispatch s then
    match s.params.opcodes.rowOf b with
    | none => .failed (.unsupportedOpcode b a) s
    | some k =>
      if k.hasImm32 then
        match fetch32 s with
        | .done operand t => .ready (k.instr operand) t
        | .failed f left => .failed f left
      else .ready (k.instr 0) s
  else .noMeaning

/-- The prefix loop (R142, R143), with fuel for the bytes it may fetch. Each toggle is flipped "as
soon as its prefix byte is seen, before the next fetch". -/
def fetchLoop : Nat → State → Fetched
  | 0, _ => .endless
  | fuel + 1, s =>
    match fetch8 s with
    | .failed f left => .failed f left
    | .done b t =>
      match s.params.opcodes.prefixOf b with
      | some p => fetchLoop fuel (t.flipToggle p)
      | none => fetchOperand b s.ip t

/-- The fetch of one step. One more byte than Memory holds is fuel enough: for `N < 2^32` the loop
ends "by `OutOfBounds` at address `N` at the latest", and for `N = 2^32` a loop that has read every
byte and met only prefixes never ends (R147). -/
def fetchInstr (s : State) : Fetched := fetchLoop (s.mem.size + 1) s

end Sys2Proof.Machine
end

