-- ==== Sys2Proof/Machine/Executor.lean ====
section
/-! DEFINITION. One step of the core (R140): halt test, fetch, execute; and the placing of an
instruction where the next step fetches it. -/

namespace Sys2Proof.Machine

/-- A step of a core that is not halted: FETCH, then EXECUTE (R140, R142 to R145). -/
def stepLive (s : State) : Host.Outcome State Fault Refusal :=
  match fetchInstr s with
  | .ready i t => exec i t
  | .failed f left => raise f left
  | .noMeaning => .refused .dispatchUnder16BitToggle
  | .endless => .fault .endlessPrefixes

/-- `step()` (R140, R141): "if halted, returns immediately without fetching". It neither reads nor
writes `running` (R146). -/
def stepOnce (s : State) : Host.Outcome State Fault Refusal := if s.halted then .next s else stepLive s

/-- Put a table word's bytes at `ip`, as many as Memory holds from there, on a core that fetches (one
that is not halted). -/
def placeAtIp (s : State) (bytes : List Byte) : State :=
  (s.setMem (s.mem.putBytes s.ip.toNat (bytes.take (s.mem.size - s.ip.toNat)))).setHalted false

end Sys2Proof.Machine
end

