-- ==== Sys2Proof/Machine/Step.lean ====
section
/-! DEFINITION. The step function, and `withFetchWord`, by the names the host uses. -/

namespace Sys2Proof.Machine

/-- One call of the spec's `step()` (R140). -/
def step : State → Host.Outcome State Fault Refusal := fun s => stepOnce s

/-- The state with a table word stored where `step` fetches its next instruction. -/
def State.withFetchWord (s : State) (nbits w : Nat) : State := placeAtIp s (tableBytes nbits w)

end Sys2Proof.Machine
end

