-- ==== Sys2Proof/Machine/Operands.lean ====
section
/-! DEFINITION. Every operand form of the spec: the sub-width register views (R23 to R26), sign
extension (R124), ModRM decoding (R125) and effective addresses (R126 to R132). "A model that keeps
[the last three] must not give them callers" (R133): no instruction of this model calls them. -/

namespace Sys2Proof.Machine

/-! ### Sub-width views -/

/-- `x16[i]` (R23). -/
def State.readReg16 (s : State) (r : Reg) : Half := (s.readReg r).extractLsb' 0 16

/-- `x16[i] <- v` (R23): bits 31:16 unchanged. -/
def State.writeReg16 (s : State) (r : Reg) (v : Half) : State :=
  s.writeReg r ((s.readReg r).extractLsb' 16 16 ++ v)

/-- `xl8[i]` (R24). -/
def State.readRegLow8 (s : State) (r : Reg) : Byte := (s.readReg r).extractLsb' 0 8

/-- `xl8[i] <- v` (R24): bits 31:8 unchanged. -/
def State.writeRegLow8 (s : State) (r : Reg) (v : Byte) : State :=
  s.writeReg r ((s.readReg r).extractLsb' 8 24 ++ v)

/-- `xh8[i]` (R25): bits 15:8. -/
def State.readRegHigh8 (s : State) (r : Reg) : Byte := (s.readReg r).extractLsb' 8 8

/-- `xh8[i] <- v` (R25): bits 31:16 and 7:0 unchanged. -/
def State.writeRegHigh8 (s : State) (r : Reg) (v : Byte) : State :=
  s.writeReg r ((s.readReg r).extractLsb' 16 16 ++ v ++ (s.readReg r).extractLsb' 0 8)

/-! ### Sign extension -/

/-- `sext_bits(value)` for `1 <= bits <= 32` (R124), the value taken modulo `2^bits`. -/
def sext (value bits : Nat) : Word :=
  let v := value % 2 ^ bits
  if v.testBit (bits - 1) then BitVec.ofNat 32 (v + 2 ^ 32 - 2 ^ bits) else BitVec.ofNat 32 v

/-- `signExtend(value, bits)` (R124); a width outside 1..32 is refused (U17). -/
def signExtend (value bits : Nat) : Option Word :=
  if 1 ≤ bits ∧ bits ≤ 32 then some (sext value bits) else none

/-! ### ModRM and effective addresses -/

/-- The fields of a ModRM byte (R96). -/
structure ModRM where
  mod : BitVec 2
  reg : BitVec 3
  rm : BitVec 3
deriving DecidableEq, Repr

/-- The split of a ModRM byte: `mod` 7:6, `reg` 5:3, `rm` 2:0 (R96, R125). -/
def ModRM.ofByte (b : Byte) : ModRM :=
  { mod := b.extractLsb' 6 2, reg := b.extractLsb' 3 3, rm := b.extractLsb' 0 3 }

/-- `decodeModRM()` (R125). -/
def decodeModRM (s : State) : Attempt ModRM :=
  match fetch8 s with
  | .done b t => .done (ModRM.ofByte b) t
  | .failed f left => .failed f left

/-- The forms with no meaning: register-direct (`mod = 3`) and the SIB forms (`rm = 4`) (R130, R97). -/
def unsupportedForm (mod : BitVec 2) (rm : BitVec 3) : Bool := mod == 3 || rm == 4

/-- `effectiveAddress(mod, rm)` (R126 to R132): first the unsupported-form test, then the
displacement fetch, then the addition modulo `2^32`. -/
def effectiveAddress (mod : BitVec 2) (rm : BitVec 3) (s : State) : Attempt Word :=
  if unsupportedForm mod rm then .failed (.unsupportedAddressingMode mod rm) s
  else if mod = 0 then
    if rm = 5 then fetch32 s else .done (s.readReg (Reg.ofBits rm)) s
  else if mod = 1 then
    match fetch8 s with
    | .done d t => .done (s.readReg (Reg.ofBits rm) + sext d.toNat 8) t
    | .failed f left => .failed f left
  else
    match fetch32 s with
    | .done d t => .done (s.readReg (Reg.ofBits rm) + d) t
    | .failed f left => .failed f left

end Sys2Proof.Machine
end

