-- ==== Sys2Proof/Machine/Run.lean ====
section
/-! DEFINITION. `run(maxSteps)` (R150 to R154) with the delivery of failures inside it (R223). -/

namespace Sys2Proof.Machine

/-- The exit test of `run` once its loop has ended: by halt it returns normally (R152), else
`StepLimitExceeded(count)` is delivered (R153). -/
def runExit (count : Nat) (s : State) : RunEnd :=
  if s.halted then .returned s else deliver (.stepLimitExceeded count) s

/-- The loop of `run` (R151): `budget` is what is left of `maxSteps`, `count` the steps done. -/
def runLoop : Nat → Nat → State → RunEnd
  | 0, count, s => runExit count s
  | budget + 1, count, s =>
    if s.running && !s.halted then
      match step s with
      | .next t => runLoop budget (count + 1) t
      | .fault (.raised f left) => deliver f left
      | .fault .endlessPrefixes => .endless
      | .refused r => .noMeaning r
    else runExit count s

/-- `run(maxSteps)` (R150): "sets `running=true`", counts from 0. -/
def run (maxSteps : Nat) (s : State) : RunEnd := runLoop maxSteps 0 (s.setRunning true)

end Sys2Proof.Machine
end

