-- ==== Sys2Proof/Machine/HostOps.lean ====
section
/-! DEFINITION. What the host can do to a live core between calls (R48, R268): step, run, install a
hook, read and write registers, `ip`, flags and Memory. It has no operation on `halted`, `running`,
`opsize` or `addrsize` (R48, D34). Creating a core is `State.create`, loading one is `load`. -/

namespace Sys2Proof.Machine

/-- The four hook slots (R42). -/
inductive HookSlot
  | onHalt
  | onError
  | onDebug
  | onOutput
deriving DecidableEq, Repr

/-- Write a hook slot (R42): a callback, or none. -/
def Hooks.install (h : Hooks) (slot : HookSlot) (callback : Option HookId) : Hooks :=
  match slot with
  | .onHalt => { h with onHalt := callback }
  | .onError => { h with onError := callback }
  | .onDebug => { h with onDebug := callback }
  | .onOutput => { h with onOutput := callback }

/-- A host read of Memory at any integer address; a negative one fails (R62). -/
def hostRead {α : Type} (addr : Int) (width : Nat) (read : Nat → Except Failure α) :
    Except Failure α :=
  if addr < 0 then .error (.outOfBounds addr width) else read addr.toNat

/-- The host's `read8` (R48, R64). -/
def hostRead8 (addr : Int) (s : State) : Except Failure Byte := hostRead addr 1 s.mem.read8
/-- The host's `read16` (R48, R64). -/
def hostRead16 (addr : Int) (s : State) : Except Failure Half := hostRead addr 2 s.mem.read16
/-- The host's `read32` (R48, R64). -/
def hostRead32 (addr : Int) (s : State) : Except Failure Word := hostRead addr 4 s.mem.read32

/-- What the host can do to a live core. Values written to Memory are numbers: "only the low `8n`
bits of `v` are stored" (R65). -/
inductive HostAction
  | step
  | run (maxSteps : Nat)
  | installHook (slot : HookSlot) (callback : Option HookId)
  | writeReg (r : Reg) (v : Word)
  | writeReg16 (r : Reg) (v : Half)
  | writeRegLow8 (r : Reg) (v : Byte)
  | writeRegHigh8 (r : Reg) (v : Byte)
  | writeIp (v : Word)
  | writeFlags (f : Flags)
  | setPackedFlags (w : Word)
  | setZS32 (v : Int)
  | setZS8 (v : Int)
  | write8 (addr : Int) (v : Nat)
  | write16 (addr : Int) (v : Nat)
  | write32 (addr : Int) (v : Nat)
deriving DecidableEq, Repr

/-- The end of a host write to Memory: the core with the new Memory, or a failure that goes to the
host's call and changes nothing (R62, R63). -/
def hostWrite (addr : Int) (width : Nat) (write : Nat → Except Failure Memory) (s : State) : RunEnd :=
  match hostRead addr width write with
  | .ok m => .returned (s.setMem m)
  | .error f => .raised f s

/-- A step called by the host directly: its failure "propagates to that caller", `running` is not
written and `onError` is not called (R224). -/
def hostStep (s : State) : RunEnd :=
  match step s with
  | .next t => .returned t
  | .fault (.raised f left) => .raised f left
  | .fault .endlessPrefixes => .endless
  | .refused r => .noMeaning r

/-- One host action on a live core (R48, R268). -/
def hostAct (a : HostAction) (s : State) : RunEnd :=
  match a with
  | .step => hostStep s
  | .run maxSteps => run maxSteps s
  | .installHook slot callback => .returned (s.setHooks (s.hooks.install slot callback))
  | .writeReg r v => .returned (s.writeReg r v)
  | .writeReg16 r v => .returned (s.writeReg16 r v)
  | .writeRegLow8 r v => .returned (s.writeRegLow8 r v)
  | .writeRegHigh8 r v => .returned (s.writeRegHigh8 r v)
  | .writeIp v => .returned (s.setIp v)
  | .writeFlags f => .returned (s.setFlags f)
  | .setPackedFlags w => .returned (s.setFlags (Flags.unpack w))
  | .setZS32 v => .returned (s.setFlags (s.flags.setZS32 v))
  | .setZS8 v => .returned (s.setFlags (s.flags.setZS8 v))
  | .write8 addr v => hostWrite addr 1 (fun a => s.mem.write8 a (BitVec.ofNat 8 v)) s
  | .write16 addr v => hostWrite addr 2 (fun a => s.mem.write16 a (BitVec.ofNat 16 v)) s
  | .write32 addr v => hostWrite addr 4 (fun a => s.mem.write32 a (BitVec.ofNat 32 v)) s

end Sys2Proof.Machine
end

