-- ==== Sys2Proof/Machine/Loader.lean ====
section
/-! DEFINITION. The Loader, the boot agent that gives the launch state (spec/70_reset_and_hazards.md
R256 to R266). `buf` is the source buffer; offsets and sums are unbounded (log entry 30). -/

namespace Sys2Proof.Machine

/-- A 16-bit little-endian field of the buffer; one that lies partly outside it fails (R256). -/
def bufU16 (buf : List Byte) (off : Nat) : Except LoadFailure Half :=
  match buf.drop off with
  | b0 :: b1 :: _ => .ok (le16 b0 b1)
  | _ => .error .invalidHeader

/-- A 32-bit little-endian field of the buffer (R256). -/
def bufU32 (buf : List Byte) (off : Nat) : Except LoadFailure Word :=
  match buf.drop off with
  | b0 :: b1 :: b2 :: b3 :: _ => .ok (le32 b0 b1 b2 b3)
  | _ => .error .invalidHeader

/-- What steps 1 to 4 read from the header (R260, R261); Loader-internal, not core state. -/
structure ImageHeader where
  sectionCount : Half
  sectionTableOffset : Nat
  entryPointRVA : Word
  imageBase : Word
deriving DecidableEq, Repr

/-- One section descriptor (R261, R263). -/
structure Section where
  virtualAddress : Word
  rawSize : Word
  rawFileOffset : Word
deriving DecidableEq, Repr

/-- Steps 1 to 4: the two signatures, the target class and the header fields (R257 to R260). -/
def readHeader (p : Config.LoaderParams) (buf : List Byte) : Except LoadFailure ImageHeader := do
  let mz ← bufU16 buf 0
  if mz ≠ p.sigMZ then throw .invalidHeader
  let headerOffset := (← bufU32 buf 0x3C).toNat
  let pe ← bufU32 buf headerOffset
  if pe ≠ p.sigPE then throw .invalidHeader
  let magic ← bufU16 buf (headerOffset + 24)
  if magic ≠ p.magicPE32 then throw .unsupported64Bit
  let sectionCount ← bufU16 buf (headerOffset + 6)
  let subHeaderSize ← bufU16 buf (headerOffset + 20)
  let subHeaderOffset := headerOffset + 24
  let imageBase ← bufU32 buf (subHeaderOffset + 28)
  let entryPointRVA ← bufU32 buf (subHeaderOffset + 16)
  return { sectionCount := sectionCount
           sectionTableOffset := subHeaderOffset + subHeaderSize.toNat
           entryPointRVA := entryPointRVA
           imageBase := imageBase }

/-- The descriptor at an offset: +12, +16, +20 (R263). Only those three fields are read, so only they
must lie in the buffer: a last descriptor whose 40 bytes run past `buf` behind them is accepted, a
point on which the spec is silent. DESIGN CHOICE: log entry 30. -/
def readSection (buf : List Byte) (off : Nat) : Except LoadFailure Section := do
  let va ← bufU32 buf (off + 12)
  let size ← bufU32 buf (off + 16)
  let ptr ← bufU32 buf (off + 20)
  return { virtualAddress := va, rawSize := size, rawFileOffset := ptr }

/-- Copy one section: "A copy that would run past either buffer fails with `OutOfBounds`" (R263). -/
def copySection (buf : List Byte) (imageBase : Word) (d : Section) (m : Memory) :
    Except LoadFailure Memory :=
  let dest := imageBase.toNat + d.virtualAddress.toNat
  if d.rawFileOffset.toNat + d.rawSize.toNat > buf.length ∨ dest + d.rawSize.toNat > m.size then
    .error .outOfBounds
  else .ok (m.putBytes dest ((buf.drop d.rawFileOffset.toNat).take d.rawSize.toNat))

/-- Step 5: copy that many sections in table order, descriptors 40 bytes apart (R263). -/
def copySections (buf : List Byte) (imageBase : Word) :
    Nat → Nat → Memory → Except LoadFailure Memory
  | 0, _, m => .ok m
  | k + 1, off, m => do
    let d ← readSection buf off
    let m' ← copySection buf imageBase d m
    copySections buf imageBase k (off + 40) m'

/-- Step 6: the launch registers (R264). -/
def launchRegs (imageBase : Word) : Regs :=
  { Regs.zero with sp := imageBase + Config.stackOffset, bp := imageBase + Config.stackOffset }

/-- Reset of a new core of capacity `n`, then Loader steps 1 to 6 (R257 to R264). -/
def loadImage (params : Config.Params) (p : Config.LoaderParams) (n : Nat) (buf : List Byte) :
    Except LoadFailure State := do
  let h ← readHeader p buf
  let s := State.create params n
  let m ← copySections buf h.imageBase h.sectionCount.toNat h.sectionTableOffset s.mem
  return ((s.setMem m).setRegs (launchRegs h.imageBase)).setIp (h.imageBase + h.entryPointRVA)

/-- How a load ends. -/
inductive LoadEnd
  /-- "an initialized ... CPU instance" (R256). -/
  | loaded (s : State)
  /-- A failed load: it "returns no instance" (R256). -/
  | failed (failure : LoadFailure)
  /-- Step 7 with a syscall hook: its trigger and action "are not given anywhere" (R266, D28). -/
  | noMeaning
deriving DecidableEq, Repr

/-- load(buffer): reset, then Loader steps 1 to 7 (R268). With `SYSCALL_HOOK` absent step 7 does
nothing; asked to include a hook, the model refuses, as spec/93_implementation_defined.md U6 says
(log entry 31). -/
def load (params : Config.Params) (p : Config.LoaderParams) (n : Nat) (buf : List Byte) : LoadEnd :=
  match loadImage params p n buf with
  | .error f => .failed f
  | .ok s =>
    match p.syscallHook with
    | none => .loaded s
    | some _ => .noMeaning

end Sys2Proof.Machine
end

