-- ==== Sys2Proof/Safety.lean ====
section
/-! DEFINITION. The terms claims use: the invariant of a core, a legal launch state, the frames of
instructions, code standing in Memory, and states compared up to the override toggles. -/

namespace Sys2Proof.Machine

/-! ### Invariants -/

/-- What holds of every core from its creation on: Memory is in canonical form with `N <= 2^32`, and
the core's open opcode bytes make an opcode map (log entry 39). -/
abbrev State.Inv (s : State) : Prop := s.mem.wf ∧ s.params.opcodes.legal

/-- Bytes stand in Memory from `ip` up, each inside `[0, N)` and none past the top of the address
space. -/
abbrev State.codeAtIp (s : State) (bytes : List Byte) : Prop :=
  ∀ k, (h : k < bytes.length) → s.ip.toNat + k < s.mem.size ∧ s.ip.toNat + k < 2 ^ 32
    ∧ s.mem.byteAt (s.ip.toNat + k) = bytes[k]

/-- A legal launch state for a program of these code bytes (R267): `halted = 0`, `running = 0`, Memory
of a legal capacity, and "the code bytes are in Memory at `ip`". The toggles are 16 or 32 by their
type. -/
abbrev State.launchable (s : State) (code : List Byte) : Prop :=
  s.halted = false ∧ s.running = false ∧ s.Inv ∧ code ≠ [] ∧ s.codeAtIp code

/-- Room for that many pushed words (R267): the stack pointer is at most `N`, "and the words it will
push must fit below" it. For one word this is R271's `4 <= x[4] <= N`. -/
abbrev State.roomFor (s : State) (words : Nat) : Prop :=
  4 * words ≤ (s.readReg .sp).toNat ∧ (s.readReg .sp).toNat ≤ s.mem.size

/-- Where a push succeeds: its slot passes the test of R62 (R69, R212). This is R271's
`4 <= x[4] <= N` for every `N < 2^32`; for `N = 2^32` see log entry 6. -/
abbrev State.pushPasses (s : State) : Prop := (pushSlot s).toNat + 4 ≤ s.mem.size

/-- How many of the recorded host calls went to `onHalt`. -/
def State.haltCalls (s : State) : Nat :=
  (s.hookCalls.filter fun c => match c with
    | .onHalt _ => true
    | .onError _ _ => false).length

/-- "the hook fires at most once per reset" (R201), with what makes it inductive: a core that is not
halted has not called it. -/
abbrev State.haltCallsOnce (s : State) : Prop :=
  s.haltCalls ≤ 1 ∧ (s.halted = false → s.haltCalls = 0)

/-- The state a call by the host leaves, where the call ends. -/
def RunEnd.state? : RunEnd → Option State
  | .returned s => some s
  | .raised _ s => some s
  | .endless => none
  | .noMeaning _ => none

/-- `n` steps, ending at the first failure: the loop of `run` without its budget and delivery. -/
def stepTimes : Nat → State → Host.Outcome State Fault Refusal
  | 0, s => .next s
  | n + 1, s =>
    match step s with
    | .next t => stepTimes n t
    | .fault f => .fault f
    | .refused r => .refused r

/-- A recorded call of `onError` with `StepLimitExceeded`. -/
def HookCall.isLimit : HookCall → Bool
  | .onHalt _ => false
  | .onError _ (.stepLimitExceeded _) => true
  | .onError _ (.outOfBounds _ _) => false
  | .onError _ (.unsupportedOpcode _ _) => false
  | .onError _ (.unsupportedAddressingMode _ _) => false

/-- A state with those recorded calls forgotten. -/
def State.eraseLimits (s : State) : State :=
  { s with hookCalls := s.hookCalls.filter fun c => !c.isLimit }

/-- An end of `run` with the steps of an earlier call added to the count it reports (R153). -/
def RunEnd.addSteps (n : Nat) : RunEnd → RunEnd
  | .raised (.stepLimitExceeded count) s => .raised (.stepLimitExceeded (n + count)) s
  | .raised f s => .raised f s
  | .returned s => .returned s
  | .endless => .endless
  | .noMeaning r => .noMeaning r

/-- An end of `run` with the recorded `StepLimitExceeded` calls forgotten. -/
def RunEnd.eraseLimits : RunEnd → RunEnd
  | .returned s => .returned s.eraseLimits
  | .raised f s => .raised f s.eraseLimits
  | .endless => .endless
  | .noMeaning r => .noMeaning r

/-! ### Frames -/

/-- Everything but the registers, `ip`, the flags and Memory agrees. -/
abbrev sameControl (s t : State) : Prop :=
  t.running = s.running ∧ t.halted = s.halted ∧ t.opsize = s.opsize ∧ t.addrsize = s.addrsize
    ∧ t.hooks = s.hooks ∧ t.params = s.params ∧ t.hookCalls = s.hookCalls

/-- Every byte of Memory reads as before, and the capacity is the same. -/
def sameMemory (s t : State) : Prop :=
  t.mem.size = s.mem.size ∧ ∀ a : Nat, t.mem.byteAt a = s.mem.byteAt a

/-- The capacity is the same, and every byte outside the `width` bytes at `base` reads as before. -/
def sameMemoryOutside (base width : Nat) (s t : State) : Prop :=
  t.mem.size = s.mem.size
    ∧ ∀ a : Nat, ¬ (base ≤ a ∧ a < base + width) → t.mem.byteAt a = s.mem.byteAt a

/-- Every register but those listed reads as before. -/
def sameRegsBut (written : List Reg) (s t : State) : Prop :=
  ∀ r : Reg, r ∉ written → t.readReg r = s.readReg r

/-- Every flag but CF, ZF and SF is as before (R172). -/
abbrev sameFlagsButAdd (f g : Flags) : Prop :=
  g.parity = f.parity ∧ g.adjust = f.adjust ∧ g.trap = f.trap
    ∧ g.interruptEnable = f.interruptEnable ∧ g.direction = f.direction ∧ g.overflow = f.overflow

/-- The registers an instruction writes, complete (R27). -/
def writtenRegs : Instr → List Reg
  | .addAcc _ => [.acc]
  | .pushAcc => [.sp]
  | .pushCnt => [.sp]
  | .pushDat => [.sp]
  | .pushBas => [.sp]
  | .pushSp => [.sp]
  | .pushBp => [.sp]
  | .pushSi => [.sp]
  | .pushDi => [.sp]
  | .popAcc => [.sp, .acc]
  | .popCnt => [.sp, .cnt]
  | .popDat => [.sp, .dat]
  | .popBas => [.sp, .bas]
  | .popSp => [.sp]
  | .popBp => [.sp, .bp]
  | .popSi => [.sp, .si]
  | .popDi => [.sp, .di]
  | .opsize => []
  | .adsize => []
  | .nop => []
  | .movAcc _ => [.acc]
  | .movCnt _ => [.cnt]
  | .movDat _ => [.dat]
  | .movBas _ => [.bas]
  | .movSp _ => [.sp]
  | .movBp _ => [.bp]
  | .movSi _ => [.si]
  | .movDi _ => [.di]
  | .ret => [.sp]
  | .call _ => [.sp]
  | .jmp _ => []
  | .hlt => []

/-- The test of R62 on an address of the host's: `0 <= addr` and `addr + width <= N`. -/
abbrev State.spans (s : State) (addr : Int) (width : Nat) : Prop :=
  0 ≤ addr ∧ addr + width ≤ s.mem.size

/-- A host write is wholly applied or not at all (R62, R63): inside, byte `k` of the access reads
bits `8k+7:8k` of `v` afterwards (R65) and no other byte changes; outside, it raises `OutOfBounds` and
changes nothing. -/
def allOrNothing (a : HostAction) (addr : Int) (width v : Nat) (s : State) : Prop :=
  (s.spans addr width → ∃ m : Memory, hostAct a s = .returned (s.setMem m)
      ∧ (∀ k : Nat, k < width → m.byteAt (addr.toNat + k) = BitVec.ofNat 8 (v / 2 ^ (8 * k)))
      ∧ sameMemoryOutside addr.toNat width s (s.setMem m))
    ∧ (¬ s.spans addr width → hostAct a s = .raised (.outOfBounds addr width) s)

/-! ### Code in Memory -/

/-- `ip` moved past `n` bytes, and the toggles those prefixes flipped (R30, R143). -/
def State.past (s : State) (n : Nat) (prefixes : List Override) : State :=
  (s.setIp (s.ip + BitVec.ofNat 32 n)).flipToggles prefixes

/-- A byte that is no row's: unassigned on a core with these open bytes (R103). -/
def unassigned (o : Config.Opcodes) (b : Byte) : Bool :=
  Opcode.all.all fun k => o.byteOf k != b

/-- The 224 unassigned opcode bytes under the default parameters, as R100's last row lists them. -/
def unassignedByDefault (b : Byte) : Bool :=
  [(0x00, 0x04), (0x06, 0x4F), (0x60, 0x65), (0x68, 0x8F), (0x91, 0xB7), (0xC0, 0xC2), (0xC4, 0xE7),
    (0xEA, 0xF3), (0xF5, 0xFF)].any fun range => range.1 ≤ b.toNat && b.toNat ≤ range.2

/-- The opcode bytes that a 32-bit operand follows (R94, R95): `OPC_ADD_ACC_IMM`, `OPC_CALL_REL32`,
`OPC_JMP_REL32`, and the eight from `OPC_MOV_BASE`. -/
def takesOperand (o : Config.Opcodes) (b : Byte) : Bool :=
  b.toNat == 0x05 || b == o.callRel32 || b == o.jmpRel32 || (0xB8 ≤ b.toNat && b.toNat ≤ 0xBF)

/-! ### States up to the override toggles -/

/-- A state with both toggles forgotten. -/
def State.eraseToggles (s : State) : State := (s.setOpsize .bits32).setAddrsize .bits32

/-- An outcome with the toggles of its state forgotten. -/
def eraseOutcome (o : Host.Outcome State Fault Refusal) : Host.Outcome State Fault Refusal :=
  match o with
  | .next s => .next s.eraseToggles
  | .fault (.raised f left) => .fault (.raised f left.eraseToggles)
  | .fault .endlessPrefixes => .fault .endlessPrefixes
  | .refused r => .refused r

end Sys2Proof.Machine
end

