-- ==== Sys2Proof/Certificates/Slice0/Obligations.lean ====
section
/-! DEFINITION. The statements for the provers. Each docstring names the rules of spec/ it rests on;
a clause that is a decision of the spec or of the model says so. -/

open Sys2Proof Sys2Proof.Machine

/-! ### Encoding and decoding -/

/-- R90, R94, R95, R99 to R102: for any open bytes that make an opcode map (log entry 39), decoding the
bytes of any step's instruction, with any bytes after them, gives back its prefixes, its opcode and
its operand. -/
def Obligations.DecodeOfEncodedStep : Prop :=
  ∀ (o : Config.Opcodes) (c : StepCode) (rest : List Byte), o.legal → c.wf = true →
    decodeStep o (encodeStep o c ++ rest) = .ok (c, rest)

/-- R103, R106: "There is no other way to encode the same operation twice": bytes that decode are the
encoding of what they decode to, followed by what is left over, whatever the open bytes. -/
def Obligations.DecodedBytesAreTheEncoding : Prop :=
  ∀ (o : Config.Opcodes) (bytes rest : List Byte) (c : StepCode), decodeStep o bytes = .ok (c, rest) →
    c.wf = true ∧ bytes = encodeStep o c ++ rest

/-- R100, R103: the bytes refused as unassigned, whatever follows, are exactly those of no row; under
the default open bytes (PRESUMED: log entry 1; that the table is closed: D6, log entry 9) these are the
224 of R100. -/
def Obligations.UnassignedBytesRefused : Prop :=
  ∀ b : Byte,
    (∀ o : Config.Opcodes, unassigned o b = true
      ↔ ∀ rest : List Byte, decode o (b :: rest) = .error (.unassigned b))
    ∧ unassigned Config.defaultOpcodes b = unassignedByDefault b

/-- R102: "the opcode alone decides whether 4 more bytes follow": a row's bytes are its opcode byte
and, exactly for the opcodes of formats I32, RI32 and D32, four more. Which bytes those are is R94, R95
and R100 over the open bytes of R7; the default open bytes `E8` and `E9`, and the seven bytes `B9` to
`BF` after the source's `B8`, are PRESUMED (log entry 1). -/
def Obligations.OpcodeAloneGivesLength : Prop :=
  ∀ (o : Config.Opcodes) (b : Byte) (rest rest' : List Byte) (i : Instr), o.legal →
    decode o (b :: rest) = .ok (i, rest') →
    (takesOperand o b = true → ∃ operand : List Byte, operand.length = 4 ∧ rest = operand ++ rest')
      ∧ (takesOperand o b = false → rest = rest')

/-- Words written out from the spec's encodings (R92 to R95, R100; vectors A2, D1, J6, J2, K1, K2, H1,
H5) decode to the instructions they stand for. `05` and `B8` are the source's; `E8`, `E9`, `50`, `5B`,
`C3`, `F4`, `90` and `66` are the default open bytes (PRESUMED: log entry 1), that `5B` is the base
register is the register order (D3, log entry 2), and that `0F` decodes to nothing is D6 (log entry
9). -/
def Obligations.SampleWordsDecode : Prop :=
  decodeTableWord 40 0x12345678B8 = some (.movAcc 0x12345678)
    ∧ decodeTableWord 40 0x0000000105 = some (.addAcc 1)
    ∧ decodeTableWord 40 0x00000006E8 = some (.call 6)
    ∧ decodeTableWord 40 0xFFFFFFFBE9 = some (.jmp 0xFFFFFFFB)
    ∧ decodeTableWord 8 0x50 = some .pushAcc ∧ decodeTableWord 8 0x5B = some .popBas
    ∧ decodeTableWord 8 0xC3 = some .ret ∧ decodeTableWord 8 0xF4 = some .hlt
    ∧ decodeTableWord 8 0x90 = some .nop ∧ decodeTableWord 8 0x66 = some .opsize
    ∧ decodeTableWord 8 0x0F = none

/-! ### One step -/

/-- R140 to R145, R30: when the bytes at `ip` decode to a step's instruction, a step of a live core
is the execution of that instruction on the state with `ip` past the bytes and the toggles of its
prefixes flipped. `mayDispatch` is the policy parameter's test; under the default it is true. -/
def Obligations.StepRunsDecodedInstruction : Prop :=
  ∀ (s : State) (n : Nat) (c : StepCode), s.halted = false →
    s.ip.toNat + n ≤ s.mem.size → s.ip.toNat + n ≤ 2 ^ 32 →
    decodeStep s.params.opcodes (s.mem.bytesFrom s.ip.toNat n) = .ok (c, []) →
    mayDispatch (s.flipToggles c.prefixes) = true →
    step s = exec c.core (s.past n c.prefixes)

/-- R143: a prefix byte is executed inside the step of the opcode that follows it: a step at a prefix
byte is the step of the state its execution leaves. -/
def Obligations.StepExecutesPrefixThenGoesOn : Prop :=
  ∀ (s : State) (p : Override), s.Inv → s.halted = false → s.ip.toNat + 1 ≤ s.mem.size →
    s.params.opcodes.prefixOf (s.mem.byteAt s.ip.toNat) = some p →
    ∃ t : State, exec p.toInstr (s.setIp (s.ip + 1)) = .next t ∧ step s = step t

/-- R203, R222: an unassigned byte behind any prefixes raises `UnsupportedOpcode` with the byte and
its own address (D36, the spec's decision); `ip` is one past it, the prefixes have flipped their
toggles, and nothing else has changed. -/
def Obligations.UnassignedOpcodeRaises : Prop :=
  ∀ (s : State) (prefixes : List Override) (b : Byte), s.Inv → s.halted = false →
    unassigned s.params.opcodes b = true → s.codeAtIp (prefixBytes s.params.opcodes prefixes ++ [b]) →
    mayDispatch (s.flipToggles prefixes) = true →
    step s = .fault (.raised
      (.unsupportedOpcode b (s.ip + BitVec.ofNat 32 prefixes.length))
      (s.past (prefixes.length + 1) prefixes))

/-- R142, R212, R222: an opcode or prefix byte outside Memory, after any prefixes, raises
`OutOfBounds(ip, 1)`; `ip` stays at that byte and the prefixes before it have flipped their toggles
(no rollback: D10, the spec's decision). -/
def Obligations.OpcodeFetchOutOfBoundsRaises : Prop :=
  ∀ (s : State) (prefixes : List Override), s.Inv → s.halted = false →
    s.codeAtIp (prefixBytes s.params.opcodes prefixes) →
    ¬ (s.past prefixes.length prefixes).ip.toNat + 1 ≤ s.mem.size →
    step s = .fault (.raised
      (.outOfBounds (s.past prefixes.length prefixes).ip.toNat 1)
      (s.past prefixes.length prefixes))

/-- R123, R161, R171, R180, R181, R222: an immediate or displacement that does not lie whole in
Memory raises `OutOfBounds(ip, 4)` with `ip` one past the opcode and nothing else done but the
prefixes' toggles. -/
def Obligations.OperandFetchOutOfBoundsRaises : Prop :=
  ∀ (s : State) (prefixes : List Override) (b : Byte), s.Inv → s.halted = false →
    takesOperand s.params.opcodes b = true → s.codeAtIp (prefixBytes s.params.opcodes prefixes ++ [b]) →
    mayDispatch (s.flipToggles prefixes) = true →
    ¬ (s.past (prefixes.length + 1) prefixes).ip.toNat + 4 ≤ s.mem.size →
    step s = .fault (.raised
      (.outOfBounds (s.past (prefixes.length + 1) prefixes).ip.toNat 4)
      (s.past (prefixes.length + 1) prefixes))

/-- R149, D7: the parameter `OPSIZE16_POLICY`. Under the spec's default no step is without a meaning;
on a core created with the other policy, a step whose dispatch finds a toggle at 16 has none, whatever
its opcode byte. -/
def Obligations.PolicyDecidesWhetherStepHasMeaning : Prop :=
  (∀ (s : State) (r : Refusal), s.params.opsize16Policy = .ignore → step s ≠ .refused r)
  ∧ ∀ (s : State) (prefixes : List Override) (b : Byte), s.Inv → s.halted = false →
    s.params.opsize16Policy = .refuse → s.params.opcodes.prefixOf b = none →
    s.codeAtIp (prefixBytes s.params.opcodes prefixes ++ [b]) →
    ((s.flipToggles prefixes).opsize = .bits16 ∨ (s.flipToggles prefixes).addrsize = .bits16) →
    step s = .refused .dispatchUnder16BitToggle

/-- R149: "The toggles have no effect": with any values of the toggles, a step under the default
policy does the same to everything else. -/
def Obligations.TogglesHaveNoEffect : Prop :=
  ∀ (s : State) (o a : Toggle), s.params.opsize16Policy = .ignore →
    eraseOutcome (step ((s.setOpsize o).setAddrsize a)) = eraseOutcome (step s)

/-- R147: the step of a core with `N <= 2^32` never ends exactly when the core is live, `N = 2^32`
and every byte of Memory is a prefix value. -/
def Obligations.StepEndlessExactlyOnAllPrefixes : Prop :=
  ∀ s : State, s.Inv →
    (step s = .fault .endlessPrefixes ↔
      s.halted = false ∧ s.mem.size = 2 ^ 32
        ∧ ∀ a : Nat, a < 2 ^ 32 → (s.params.opcodes.prefixOf (s.mem.byteAt a)).isSome = true)

/-- R218, R212 to R215, R133: the failures a step can raise are `OutOfBounds` of width 1 or 4 and
`UnsupportedOpcode`; never `UnsupportedAddressingMode`, never `StepLimitExceeded`. -/
def Obligations.StepFailureKinds : Prop :=
  ∀ (s left : State) (f : Failure), step s = .fault (.raised f left) →
    (∃ a : Word, f = .outOfBounds a.toNat 1 ∨ f = .outOfBounds a.toNat 4)
      ∨ ∃ (b : Byte) (a : Word), unassigned s.params.opcodes b = true ∧ f = .unsupportedOpcode b a

/-! ### Instructions: result and frame -/

/-- R160: NOP completes and changes nothing; at the step level only `ip` moves, past its byte. -/
def Obligations.NopChangesOnlyIp : Prop :=
  ∀ s : State, exec .nop s = .next s
    ∧ (s.Inv → s.halted = false → mayDispatch s = true → s.codeAtIp [s.params.opcodes.nop] →
      step s = .next (s.setIp (s.ip + 1)))

/-- R161, R162, R20: MOV into each of the eight registers completes with the immediate in the
register, all 32 bits, and everything else unchanged. -/
def Obligations.MovWritesOnlyItsRegister : Prop :=
  ∀ (r : Reg) (imm : Word) (s : State), ∃ t : State,
    exec (Instr.mov r imm) s = .next t ∧ t.readReg r = imm ∧ sameRegsBut [r] s t
      ∧ t.ip = s.ip ∧ t.flags = s.flags ∧ sameMemory s t ∧ sameControl s t

/-- R171, R172, R173 (and D9, the spec's decision, for CF cleared): ADD completes; the accumulator is
the sum modulo `2^32`, CF the carry, ZF and SF those of the result; every other flag, register and
byte is unchanged. -/
def Obligations.AddResultAndFlags : Prop :=
  ∀ (imm : Word) (s : State), ∃ t : State,
    exec (.addAcc imm) s = .next t
      ∧ (t.readReg .acc).toNat = ((s.readReg .acc).toNat + imm.toNat) % 2 ^ 32
      ∧ (t.flags.carry = true ↔ 2 ^ 32 ≤ (s.readReg .acc).toNat + imm.toNat)
      ∧ (t.flags.zero = true ↔ t.readReg .acc = 0)
      ∧ t.flags.sign = (t.readReg .acc).getLsbD 31
      ∧ sameFlagsButAdd s.flags t.flags ∧ sameRegsBut [.acc] s t
      ∧ t.ip = s.ip ∧ sameMemory s t ∧ sameControl s t

/-- R173, row "negative immediate": adding `2^32 - k` subtracts `k` modulo `2^32`, and CF is 1
exactly when the accumulator was at least `k`: the carry is the complement of a borrow. -/
def Obligations.AddOfNegativeImmediateSubtracts : Prop :=
  ∀ (k : Nat) (s : State), 1 ≤ k → k ≤ 2 ^ 32 - 1 → ∃ t : State,
    exec (.addAcc (BitVec.ofNat 32 (2 ^ 32 - k))) s = .next t
      ∧ t.readReg .acc = s.readReg .acc - BitVec.ofNat 32 k
      ∧ (t.flags.carry = true ↔ k ≤ (s.readReg .acc).toNat)

/-- R180: JMP completes for every displacement, its target unchecked: `ip` becomes the address of the
following instruction plus the displacement, modulo `2^32`, and nothing else changes. -/
def Obligations.JmpSetsOnlyIp : Prop :=
  ∀ (rel : Word) (s : State), ∃ t : State,
    exec (.jmp rel) s = .next t ∧ t.ip.toNat = (s.ip.toNat + rel.toNat) % 2 ^ 32
      ∧ sameRegsBut [] s t ∧ t.flags = s.flags ∧ sameMemory s t ∧ sameControl s t

/-- R110, R180: a JMP assembled for a target, behind any number of prefixes, reaches it. -/
def Obligations.JumpReachesItsAssembledTarget : Prop :=
  ∀ (s : State) (prefixes : List Override) (target : Word), s.Inv → s.halted = false →
    s.codeAtIp (encodeStep s.params.opcodes
      { prefixes := prefixes, core := .jmp (relTo s.ip target prefixes.length) }) →
    mayDispatch (s.flipToggles prefixes) = true →
    ∃ t : State, step s = .next t ∧ t.ip = target

/-- R181, R190, R62: where the slot passes the bounds test (`4 <= x[4] <= N`, R271; and `x[4] = 0` with
`N = 2^32`, DEDUCED: log entry 6), CALL completes: the stack pointer is decremented by 4, the slot holds
the return address, `ip` is the target, and nothing else changes. -/
def Obligations.CallPushesReturnAddress : Prop :=
  ∀ (rel : Word) (s : State), s.pushPasses → ∃ t : State,
    exec (.call rel) s = .next t
      ∧ (t.readReg .sp).toNat = ((s.readReg .sp).toNat + (2 ^ 32 - 4)) % 2 ^ 32
      ∧ t.mem.read32 (pushSlot s).toNat = .ok s.ip
      ∧ t.ip = s.ip + rel
      ∧ sameRegsBut [.sp] s t ∧ sameMemoryOutside (pushSlot s).toNat 4 s t
      ∧ t.flags = s.flags ∧ sameControl s t

/-- R182, R191: where the word at the stack pointer lies in Memory, RET completes: `ip` is that word,
whatever its value, the stack pointer is incremented by 4, and nothing else changes. -/
def Obligations.RetPopsInstructionPointer : Prop :=
  ∀ s : State, (s.readReg .sp).toNat + 4 ≤ s.mem.size → ∃ t : State,
    exec .ret s = .next t
      ∧ s.mem.read32 (s.readReg .sp).toNat = .ok t.ip
      ∧ (t.readReg .sp).toNat = ((s.readReg .sp).toNat + 4) % 2 ^ 32
      ∧ sameRegsBut [.sp] s t ∧ t.flags = s.flags ∧ sameMemory s t ∧ sameControl s t

/-- R192, R193, R190, R62: where the slot passes the bounds test (`4 <= x[4] <= N`, R271; and `x[4] = 0`
with `N = 2^32`, DEDUCED: log entry 6), PUSH of each of the eight registers completes: the slot holds the register's value from before the decrement (for the stack pointer, as the
parameter `PUSH_SP_VALUE` says: D11, log entry 7), and only the stack pointer and the slot change. -/
def Obligations.PushStoresRegister : Prop :=
  ∀ (r : Reg) (s : State), s.pushPasses → ∃ t : State,
    exec (Instr.push r) s = .next t
      ∧ (t.readReg .sp).toNat = ((s.readReg .sp).toNat + (2 ^ 32 - 4)) % 2 ^ 32
      ∧ t.mem.read32 (pushSlot s).toNat = .ok
          (if s.params.pushSpValue = .decremented ∧ r = .sp then s.readReg .sp - 4 else s.readReg r)
      ∧ sameRegsBut [.sp] s t ∧ sameMemoryOutside (pushSlot s).toNat 4 s t
      ∧ t.ip = s.ip ∧ t.flags = s.flags ∧ sameControl s t

/-- R194, R195, R191: where the word at the stack pointer lies in Memory, POP into each of the eight
registers completes: the register holds the word, and the stack pointer is incremented by 4 unless
it is the register (then it holds the word: D12, the spec's decision). -/
def Obligations.PopLoadsRegister : Prop :=
  ∀ (r : Reg) (s : State), (s.readReg .sp).toNat + 4 ≤ s.mem.size → ∃ t : State,
    exec (Instr.pop r) s = .next t
      ∧ s.mem.read32 (s.readReg .sp).toNat = .ok (t.readReg r)
      ∧ (r ≠ .sp → (t.readReg .sp).toNat = ((s.readReg .sp).toNat + 4) % 2 ^ 32)
      ∧ sameRegsBut [.sp, r] s t
      ∧ t.ip = s.ip ∧ t.flags = s.flags ∧ sameMemory s t ∧ sameControl s t

/-- R200, R201, R226: HLT completes: `halted` is 1, `onHalt` has been called once if it is
registered, and nothing else changes. -/
def Obligations.HltHaltsAndCallsHook : Prop :=
  ∀ s : State, ∃ t : State, exec .hlt s = .next t ∧ t.halted = true
    ∧ t.hookCalls = s.hookCalls ++ (s.hooks.onHalt.map HookCall.onHalt).toList
    ∧ sameRegsBut [] s t ∧ t.ip = s.ip ∧ t.flags = s.flags ∧ sameMemory s t
    ∧ t.running = s.running ∧ t.opsize = s.opsize ∧ t.addrsize = s.addrsize
    ∧ t.hooks = s.hooks ∧ t.params = s.params

/-- R143, R41: each prefix byte completes, flips its own toggle (`32 -> 16`, `16 -> 32`) and changes
nothing else. -/
def Obligations.PrefixFlipsOnlyItsToggle : Prop :=
  ∀ s : State,
    (∃ t : State, exec .opsize s = .next t ∧ t = s.setOpsize t.opsize ∧ t.opsize ≠ s.opsize)
      ∧ ∃ t : State, exec .adsize s = .next t ∧ t = s.setAddrsize t.addrsize ∧ t.addrsize ≠ s.addrsize

/-- R190, R69, R212, R222 (no rollback: D10, log entry 14): a PUSH or CALL whose slot fails the bounds
test raises `OutOfBounds` with the slot's address, leaving the stack pointer decremented, the jump not
taken and everything else as it was. The test fails unless `4 <= x[4] <= N` (R271), save at `x[4] = 0`
with `N = 2^32` (DEDUCED: log entry 6). -/
def Obligations.FailedPushLeavesDecrement : Prop :=
  ∀ (s : State) (i : Instr), ((∃ r : Reg, i = Instr.push r) ∨ ∃ rel : Word, i = .call rel) →
    ¬ s.pushPasses →
    exec i s = .fault (.raised (.outOfBounds (pushSlot s).toNat 4)
      (s.writeReg .sp (s.readReg .sp - 4)))

/-- R191, R182, R194: a POP or RET whose word does not lie in Memory raises `OutOfBounds` with the
stack pointer's value and leaves everything as it was. -/
def Obligations.FailedPopChangesNothing : Prop :=
  ∀ (s : State) (i : Instr), ((∃ r : Reg, i = Instr.pop r) ∨ i = .ret) →
    ¬ (s.readReg .sp).toNat + 4 ≤ s.mem.size →
    exec i s = .fault (.raised (.outOfBounds (s.readReg .sp).toNat 4) s)

/-- R62, R69, R212: for every `N` a push succeeds iff its slot passes the bounds test. For every
`N < 2^32` this is R271's "iff `4 <= x[4] <= N`"; for `N = 2^32` the push at `x[4] = 0` succeeds too, by
R62 and ruling C5 over the sentences of R190 and R271 (DEDUCED: log entry 6). And R267's condition on
the stack is enough: with room for so many words, each push succeeds and leaves room for one less. -/
def Obligations.PushSucceedsIffStackInside : Prop :=
  ∀ (r : Reg) (s : State),
    ((∃ t : State, exec (Instr.push r) s = .next t) ↔ (pushSlot s).toNat + 4 ≤ s.mem.size)
    ∧ (s.mem.size < 2 ^ 32 →
      ((∃ t : State, exec (Instr.push r) s = .next t)
        ↔ 4 ≤ (s.readReg .sp).toNat ∧ (s.readReg .sp).toNat ≤ s.mem.size))
    ∧ (s.mem.size = 2 ^ 32 →
      ((∃ t : State, exec (Instr.push r) s = .next t)
        ↔ 4 ≤ (s.readReg .sp).toNat ∨ s.readReg .sp = 0))
    ∧ ∀ words : Nat, s.roomFor (words + 1) →
      ∃ t : State, exec (Instr.push r) s = .next t ∧ t.roomFor words

/-- R196: a push of R followed by a pop into S gives S the original value of R, and restores the
stack pointer when S is not the stack pointer (R = S included; D11's default). -/
def Obligations.PushThenPopMovesValue : Prop :=
  ∀ (r q : Reg) (s t : State), s.params.pushSpValue = .old → exec (Instr.push r) s = .next t →
    ∃ u : State, exec (Instr.pop q) t = .next u ∧ u.readReg q = s.readReg r
      ∧ (q ≠ .sp → u.readReg .sp = s.readReg .sp) ∧ sameRegsBut [.sp, q] s u

/-- R185: a RET with the stack pointer a CALL left, and the CALL's slot not overwritten, restores `ip`
to the address after the CALL and the stack pointer to its value before it. -/
def Obligations.CallThenRetReturns : Prop :=
  ∀ (rel : Word) (s t u : State), exec (.call rel) s = .next t →
    u.readReg .sp = t.readReg .sp → u.mem.size = t.mem.size →
    (∀ k : Nat, k < 4 →
      u.mem.byteAt ((t.readReg .sp).toNat + k) = t.mem.byteAt ((t.readReg .sp).toNat + k)) →
    ∃ v : State, exec .ret u = .next v ∧ v.ip = s.ip ∧ v.readReg .sp = s.readReg .sp

/-! ### Whole-machine rules -/

/-- R27: no instruction writes a register the complete table does not give it. -/
def Obligations.RegistersWrittenAreThoseOfTheTable : Prop :=
  ∀ (i : Instr) (s t : State), exec i s = .next t → sameRegsBut (writtenRegs i) s t

/-- R74, R198: "The only stores in the instruction set are the stack writes of PUSH and CALL", and
those reach the four bytes of the slot alone. -/
def Obligations.OnlyPushAndCallStore : Prop :=
  ∀ (i : Instr) (s t : State), exec i s = .next t →
    sameMemoryOutside (pushSlot s).toNat 4 s t
      ∧ ((∀ r : Reg, i ≠ Instr.push r) → (∀ rel : Word, i ≠ .call rel) → sameMemory s t)

/-- R38: no instruction but ADD writes a flag, and ADD leaves PF, AF, OF, TF, IF and DF alone. -/
def Obligations.OnlyAddWritesFlags : Prop :=
  ∀ (i : Instr) (s t : State), exec i s = .next t →
    sameFlagsButAdd s.flags t.flags ∧ ((∀ imm : Word, i ≠ .addAcc imm) → t.flags = s.flags)

/-- R28, R29, R39 to R42, R144, R146: no instruction writes `running` (D33, log entry 21) or a hook
slot, nor a parameter (the model's own field: log entry 35); `halted` is set by HLT alone and cleared
by none (D23, log entry 19); each toggle is written by its own prefix alone; in its execution only JMP,
CALL and RET set `ip`; and only HLT calls a hook. -/
def Obligations.ControlStateWriters : Prop :=
  ∀ (i : Instr) (s t : State), exec i s = .next t →
    t.running = s.running ∧ t.hooks = s.hooks ∧ t.params = s.params
      ∧ (t.halted = true ↔ s.halted = true ∨ i = .hlt)
      ∧ (i ≠ .opsize → t.opsize = s.opsize) ∧ (i ≠ .adsize → t.addrsize = s.addrsize)
      ∧ (i ≠ .hlt → t.hookCalls = s.hookCalls)
      ∧ ((∀ rel : Word, i ≠ .jmp rel) → (∀ rel : Word, i ≠ .call rel) → i ≠ .ret → t.ip = s.ip)

/-- R60, R62, R7: every step keeps the invariant (log entry 39 for the opcode bytes) and never changes the capacity or the parameters,
whether it answers a next state or a failure. -/
def Obligations.StepKeepsInvariant : Prop :=
  ∀ s : State, s.Inv →
    (∀ t : State, step s = .next t → t.Inv ∧ t.mem.size = s.mem.size ∧ t.params = s.params)
      ∧ ∀ (f : Failure) (left : State), step s = .fault (.raised f left) →
        left.Inv ∧ left.mem.size = s.mem.size ∧ left.params = s.params

/-- R47 (the D25 column: the spec's decisions, log entries 3 and 5), R250: a created core of capacity
`n <= 2^32` meets the invariant and holds the reset values, all of them: zero in every register, flag
and byte, `running` and `halted` 0, both toggles 32, every hook slot empty, no hook called, and the
parameters it was created with. And R267: code placed anywhere in its Memory, with `ip` at it, makes it
a legal launch state. -/
def Obligations.CreatedCoreIsLaunchable : Prop :=
  ∀ (params : Config.Params) (n : Nat) (s : State), params.opcodes.legal → n ≤ 2 ^ 32 →
    s = State.create params n →
    s.Inv ∧ s.haltCallsOnce ∧ (∀ r : Reg, s.readReg r = 0) ∧ s.ip = 0 ∧ s.flags = Flags.clear
      ∧ s.running = false ∧ s.halted = false ∧ s.opsize = .bits32 ∧ s.addrsize = .bits32
      ∧ s.hooks = Hooks.empty ∧ s.hookCalls = [] ∧ s.params = params
      ∧ s.mem.size = n ∧ (∀ a : Nat, s.mem.byteAt a = 0)
      ∧ ∀ (a : Word) (code : List Byte), code ≠ [] → a.toNat + code.length ≤ n →
        ((s.setMem (s.mem.putBytes a.toNat code)).setIp a).launchable code

/-- R48, R268: every action of the host on a live core keeps the invariant, the capacity and the
parameters. -/
def Obligations.HostActionKeepsInvariant : Prop :=
  ∀ (a : HostAction) (s t : State), s.Inv → (hostAct a s).state? = some t →
    t.Inv ∧ t.mem.size = s.mem.size ∧ t.params = s.params

/-- R201, R202, R48, R268: whatever the host does, "the hook fires at most once per reset". That the
host's actions are those of R48 and R268, with none that clears `halted`, is D34 and D23 (log entries
21 and 19); the record of calls is the model's own field (log entry 22). -/
def Obligations.HaltHookCalledAtMostOnce : Prop :=
  ∀ (a : HostAction) (s t : State), s.haltCallsOnce → (hostAct a s).state? = some t → t.haltCallsOnce

/-- R202, R273: no action of the host wakes a halted core, and none makes it call a hook again. -/
def Obligations.HaltIsFinal : Prop :=
  ∀ (a : HostAction) (s : State), s.halted = true → ∃ t : State,
    (hostAct a s).state? = some t ∧ t.halted = true ∧ t.hookCalls = s.hookCalls

/-- R141, R152: a step of a halted core changes nothing, and `run` on it changes nothing but
`running <- 1`, whatever its budget. -/
def Obligations.HaltedCoreDoesNothing : Prop :=
  ∀ (s : State) (maxSteps : Nat), s.halted = true →
    step s = .next s ∧ run maxSteps s = .returned (s.setRunning true)

/-! ### run and delivery -/

/-- R150 to R153 (D21, the spec's decisions): `run` is `maxSteps` steps from the state with
`running = 1`: it returns if they end halted, delivers `StepLimitExceeded(maxSteps)` if they do not,
and delivers the first failure among them. -/
def Obligations.RunIsIteratedSteps : Prop :=
  ∀ (s : State) (n : Nat),
    (∀ t : State, stepTimes n (s.setRunning true) = .next t →
      run n s = if t.halted then .returned t else deliver (.stepLimitExceeded n) t)
    ∧ (∀ (f : Failure) (left : State),
      stepTimes n (s.setRunning true) = .fault (.raised f left) → run n s = deliver f left)
    ∧ (stepTimes n (s.setRunning true) = .fault .endlessPrefixes → run n s = .endless)
    ∧ ∀ r : Refusal, stepTimes n (s.setRunning true) = .refused r → run n s = .noMeaning r

/-- R223, R227: delivery clears `running`; with `onError` registered it is called once with the
failure and `run` returns, without it the failure is raised; nothing else is written. -/
def Obligations.DeliveryClearsRunning : Prop :=
  ∀ (f : Failure) (s : State),
    (∀ c : HookId, s.hooks.onError = some c → ∃ t : State, deliver f s = .returned t
      ∧ t.running = false ∧ t.hookCalls = s.hookCalls ++ [.onError c f]
      ∧ { t with running := s.running, hookCalls := s.hookCalls } = s)
    ∧ (s.hooks.onError = none → ∃ t : State, deliver f s = .raised f t
      ∧ t.running = false ∧ { t with running := s.running } = s)

/-- R154 (D21, log entry 18): where `a` steps leave a core not halted, so that `run(a)` ends by its
budget, `run(b)` after it ends as `run(a+b)` does: by halt, by a failure, by its budget with the two
counts, in a step that never ends or in one without a meaning, and in the same state. With an `onError`
hook, `run(a)` has called it once more (R223): the two ends agree up to the recorded calls with
`StepLimitExceeded` (log entry 22); without one they agree exactly. -/
def Obligations.ChunkedRunIsOneRun : Prop :=
  ∀ (a b : Nat) (s t v : State), stepTimes a (s.setRunning true) = .next v → v.halted = false →
    (run a s).state? = some t →
    (run (a + b) s).eraseLimits = ((run b t).addSteps a).eraseLimits
      ∧ (s.hooks.onError = none → run (a + b) s = (run b t).addSteps a)

/-! ### Memory -/

/-- R66: "16/32-bit reads are built from consecutive 8-bit reads, least-significant byte first; writes
are decomposed the same way." -/
def Obligations.MultiByteAccessIsLittleEndian : Prop :=
  ∀ (m : Memory) (a : Nat),
    (a + 2 ≤ m.size → ∃ b0 b1 : Byte, m.read8 a = .ok b0 ∧ m.read8 (a + 1) = .ok b1
      ∧ m.read16 a = .ok (b1 ++ b0))
    ∧ (a + 4 ≤ m.size → ∃ b0 b1 b2 b3 : Byte, m.read8 a = .ok b0 ∧ m.read8 (a + 1) = .ok b1
      ∧ m.read8 (a + 2) = .ok b2 ∧ m.read8 (a + 3) = .ok b3 ∧ m.read32 a = .ok (b3 ++ b2 ++ b1 ++ b0))
    ∧ (∀ v : Half, a + 2 ≤ m.size → ∃ m1 m2 : Memory, m.write8 a (v.extractLsb' 0 8) = .ok m1
      ∧ m1.write8 (a + 1) (v.extractLsb' 8 8) = .ok m2 ∧ m.write16 a v = .ok m2)
    ∧ ∀ v : Word, a + 4 ≤ m.size → ∃ m1 m2 m3 m4 : Memory, m.write8 a (v.extractLsb' 0 8) = .ok m1
      ∧ m1.write8 (a + 1) (v.extractLsb' 8 8) = .ok m2
      ∧ m2.write8 (a + 2) (v.extractLsb' 16 8) = .ok m3
      ∧ m3.write8 (a + 3) (v.extractLsb' 24 8) = .ok m4 ∧ m.write32 a v = .ok m4

/-- R62, R63, R69, R79: every access of the six fails exactly when its bytes do not all lie below `N`,
on the unbounded sum, with the address and the width of the access; so for every `N <= 2^32` an access
of a 32-bit address that would pass `0xFFFFFFFF` fails and never wraps (D16, the spec's decision). -/
def Obligations.AccessFailsExactlyOutsideMemory : Prop :=
  ∀ (m : Memory) (a : Nat) (f : Failure) (v8 : Byte) (v16 : Half) (v32 : Word),
    (m.read8 a = .error f ↔ ¬ a + 1 ≤ m.size ∧ f = .outOfBounds a 1)
    ∧ (m.read16 a = .error f ↔ ¬ a + 2 ≤ m.size ∧ f = .outOfBounds a 2)
    ∧ (m.read32 a = .error f ↔ ¬ a + 4 ≤ m.size ∧ f = .outOfBounds a 4)
    ∧ (m.write8 a v8 = .error f ↔ ¬ a + 1 ≤ m.size ∧ f = .outOfBounds a 1)
    ∧ (m.write16 a v16 = .error f ↔ ¬ a + 2 ≤ m.size ∧ f = .outOfBounds a 2)
    ∧ (m.write32 a v32 = .error f ↔ ¬ a + 4 ≤ m.size ∧ f = .outOfBounds a 4)
    ∧ (m.size ≤ 2 ^ 32 → 2 ^ 32 < a + 4 → m.read32 a = .error (.outOfBounds a 4)
      ∧ m.write32 a v32 = .error (.outOfBounds a 4))

/-- R62, R63, on the host's accesses, whose address may be negative: a read gives a value exactly when
`0 <= addr` and `addr + width <= N`; a write outside raises `OutOfBounds` and changes nothing, and one
inside stores the low `8 * width` bits of its number, least significant byte first (R65), and changes
no other byte. The signed address is D18 (log entry 34). -/
def Obligations.HostAccessIsAllOrNothing : Prop :=
  ∀ (addr : Int) (v : Nat) (s : State),
    ((∃ x : Byte, hostRead8 addr s = .ok x) ↔ s.spans addr 1)
    ∧ ((∃ x : Half, hostRead16 addr s = .ok x) ↔ s.spans addr 2)
    ∧ ((∃ x : Word, hostRead32 addr s = .ok x) ↔ s.spans addr 4)
    ∧ allOrNothing (.write8 addr v) addr 1 v s ∧ allOrNothing (.write16 addr v) addr 2 v s
    ∧ allOrNothing (.write32 addr v) addr 4 v s

/-- R67: after `MemWrite(a,4,v)` the same four bytes read back as `v`, the two in the middle as
`v[23:8]`, and every byte outside them as before. -/
def Obligations.ReadSeesLastWrite : Prop :=
  ∀ (m m' : Memory) (a : Nat) (v : Word), m.write32 a v = .ok m' →
    m'.read32 a = .ok v ∧ m'.read16 (a + 1) = .ok (v.extractLsb' 8 16)
      ∧ m'.size = m.size ∧ ∀ x : Nat, ¬ (a ≤ x ∧ x < a + 4) → m'.byteAt x = m.byteAt x

/-! ### Registers, flags and decoder primitives -/

/-- R23 to R26 (all eight registers, and "high 8" as bits 15:8: D4, log entry 10): a write through a
sub-width view changes exactly the bits it names, seen through the 32-bit register; "and vice versa":
in every state, and so after every 32-bit write, the views read bits 15:0, 7:0 and 15:8. -/
def Obligations.SubWidthViewsAlias : Prop :=
  ∀ (s : State) (r : Reg) (v : Word) (v16 : Half) (v8 : Byte) (k : Nat), k < 32 →
    ((s.writeReg16 r v16).readReg r).getLsbD k
        = (if k < 16 then v16.getLsbD k else (s.readReg r).getLsbD k)
    ∧ ((s.writeRegLow8 r v8).readReg r).getLsbD k
        = (if k < 8 then v8.getLsbD k else (s.readReg r).getLsbD k)
    ∧ ((s.writeRegHigh8 r v8).readReg r).getLsbD k
        = (if 8 ≤ k ∧ k < 16 then v8.getLsbD (k - 8) else (s.readReg r).getLsbD k)
    ∧ sameRegsBut [r] s (s.writeReg16 r v16) ∧ sameRegsBut [r] s (s.writeRegLow8 r v8)
    ∧ sameRegsBut [r] s (s.writeRegHigh8 r v8)
    ∧ (k < 16 → (s.readReg16 r).getLsbD k = (s.readReg r).getLsbD k)
    ∧ (k < 8 → (s.readRegLow8 r).getLsbD k = (s.readReg r).getLsbD k
      ∧ (s.readRegHigh8 r).getLsbD k = (s.readReg r).getLsbD (k + 8))
    ∧ (k < 16 → ((s.writeReg r v).readReg16 r).getLsbD k = v.getLsbD k)
    ∧ (k < 8 → ((s.writeReg r v).readRegLow8 r).getLsbD k = v.getLsbD k
      ∧ ((s.writeReg r v).readRegHigh8 r).getLsbD k = v.getLsbD (k + 8))
    ∧ (s.writeReg16 r v16).readReg16 r = v16 ∧ (s.writeRegLow8 r v8).readRegLow8 r = v8
    ∧ (s.writeRegHigh8 r v8).readRegHigh8 r = v8

/-- R32 to R35 (the unnamed bits: D5, log entry 11): in the packed word CF, PF, AF, ZF, SF, TF, IF, DF
and OF stand at bits 0, 2, 4, 6, 7, 8, 9, 10 and 11 and every other bit is 0; packing and unpacking are
lossless, and a word comes back as `w AND 0x0FD5`. -/
def Obligations.PackedFlagsRoundTrip : Prop :=
  (∀ f : Flags, Flags.unpack f.pack = f
    ∧ f.pack.getLsbD 0 = f.carry ∧ f.pack.getLsbD 2 = f.parity ∧ f.pack.getLsbD 4 = f.adjust
    ∧ f.pack.getLsbD 6 = f.zero ∧ f.pack.getLsbD 7 = f.sign ∧ f.pack.getLsbD 8 = f.trap
    ∧ f.pack.getLsbD 9 = f.interruptEnable ∧ f.pack.getLsbD 10 = f.direction
    ∧ f.pack.getLsbD 11 = f.overflow
    ∧ ∀ k : Nat, k = 1 ∨ k = 3 ∨ k = 5 ∨ 12 ≤ k → f.pack.getLsbD k = false)
  ∧ ∀ w : Word, (Flags.unpack w).pack = w &&& 0x0FD5

/-- R36, R37: for any integer, ZF is set iff the masked result is zero and SF iff its top bit is; no
other flag changes. -/
def Obligations.ZeroSignSetters : Prop :=
  ∀ (f : Flags) (v : Int),
    ((f.setZS32 v).zero = true ↔ v % 2 ^ 32 = 0) ∧ ((f.setZS32 v).sign = true ↔ 2 ^ 31 ≤ v % 2 ^ 32)
    ∧ { f.setZS32 v with zero := f.zero, sign := f.sign } = f
    ∧ ((f.setZS8 v).zero = true ↔ v % 2 ^ 8 = 0) ∧ ((f.setZS8 v).sign = true ↔ 2 ^ 7 ≤ v % 2 ^ 8)
    ∧ { f.setZS8 v with zero := f.zero, sign := f.sign } = f

/-- R170: the adder's result is the exact sum modulo `2^32` and its carry says the sum reached
`2^32`. -/
def Obligations.AdderIsExactSum : Prop :=
  ∀ a b : Word, (adder a b).1.toNat = (a.toNat + b.toNat) % 2 ^ 32
    ∧ ((adder a b).2 = true ↔ a.toNat + b.toNat ≥ 2 ^ 32)

/-- R120 to R122: each fetch reads its width at `ip`, "then advance the instruction pointer by that
width (wrapping modulo the 32-bit address space)"; a read that fails raises `OutOfBounds` with `ip`
unchanged (R123: the spec's own inference from R120 to R122, R62 and R63). -/
def Obligations.FetchReadsThenAdvances : Prop :=
  ∀ s : State,
    (∀ v : Byte, s.mem.read8 s.ip.toNat = .ok v → fetch8 s = .done v (s.setIp (s.ip + 1)))
    ∧ (∀ v : Half, s.mem.read16 s.ip.toNat = .ok v → fetch16 s = .done v (s.setIp (s.ip + 2)))
    ∧ (∀ v : Word, s.mem.read32 s.ip.toNat = .ok v → fetch32 s = .done v (s.setIp (s.ip + 4)))
    ∧ (¬ s.ip.toNat + 1 ≤ s.mem.size → fetch8 s = .failed (.outOfBounds s.ip.toNat 1) s)
    ∧ (¬ s.ip.toNat + 2 ≤ s.mem.size → fetch16 s = .failed (.outOfBounds s.ip.toNat 2) s)
    ∧ (¬ s.ip.toNat + 4 ≤ s.mem.size → fetch32 s = .failed (.outOfBounds s.ip.toNat 4) s)

/-- R124: for `1 <= bits <= 32` the value taken modulo `2^bits` is sign-extended to 32 bits; a width
outside 1..32, for which the source gives no behaviour, is refused (DEDUCED: log entry 38). -/
def Obligations.SignExtendIsTwosComplement : Prop :=
  ∀ value bits : Nat,
    (1 ≤ bits → bits ≤ 32 →
      signExtend value bits = some ((BitVec.ofNat bits value).signExtend 32))
    ∧ (bits < 1 ∨ 32 < bits → signExtend value bits = none)

/-- R127 to R129: the supported combinations of `mod` and `rm`: the base register alone, a bare 32-bit
displacement for `mod = 0, rm = 5`, and the base register plus a sign-extended byte or a word, modulo
`2^32`. A displacement fetch that fails is the failure. -/
def Obligations.EffectiveAddressOfSupportedForms : Prop :=
  ∀ (s : State) (rm : BitVec 3), rm ≠ 4 →
    (rm ≠ 5 → effectiveAddress 0 rm s = .done (s.readReg (Reg.ofBits rm)) s)
    ∧ (rm = 5 → effectiveAddress 0 rm s = fetch32 s)
    ∧ (∀ (d : Byte) (t : State), fetch8 s = .done d t →
      effectiveAddress 1 rm s = .done (s.readReg (Reg.ofBits rm) + d.signExtend 32) t)
    ∧ (∀ (d : Word) (t : State), fetch32 s = .done d t →
      effectiveAddress 2 rm s = .done (s.readReg (Reg.ofBits rm) + d) t)
    ∧ (∀ (f : Failure) (t : State), fetch8 s = .failed f t → effectiveAddress 1 rm s = .failed f t)
    ∧ ∀ (f : Failure) (t : State), fetch32 s = .failed f t → effectiveAddress 2 rm s = .failed f t

/-- R130 (which forms, that they are tested before any fetch, and the payload: D19, the spec's
decision): the forms that need a scale-index-base byte or name a register directly, and only those,
raise `UnsupportedAddressingMode`, and nothing is fetched. -/
def Obligations.UnsupportedFormsRaise : Prop :=
  ∀ (s : State) (mod : BitVec 2) (rm : BitVec 3),
    (mod = 3 ∨ rm = 4 → effectiveAddress mod rm s = .failed (.unsupportedAddressingMode mod rm) s)
    ∧ ∀ left : State, effectiveAddress mod rm s = .failed (.unsupportedAddressingMode mod rm) left →
      mod = 3 ∨ rm = 4

/-- R125, R96 (bit positions: D20, the spec's decision): every byte at `ip` splits into `mod` (7:6),
`reg` (5:3) and `rm` (2:0), and `ip` advances past it. -/
def Obligations.ModRMSplitsEveryByte : Prop :=
  ∀ (s : State) (b : Byte), s.mem.read8 s.ip.toNat = .ok b → ∃ m : ModRM,
    decodeModRM s = .done m (s.setIp (s.ip + 1))
      ∧ b.toNat = 64 * m.mod.toNat + 8 * m.reg.toNat + m.rm.toNat

/-! ### The Loader -/

/-- R257 to R259 (the signature and target-class values are parameters: log entry 28): a buffer whose
first two bytes are not the legacy signature, or whose extended header is not signed, fails with
`InvalidHeader`; one of another target class fails with `Unsupported64Bit`. -/
def Obligations.LoaderRejectsBadHeaders : Prop :=
  ∀ (params : Config.Params) (p : Config.LoaderParams) (n : Nat) (buf : List Byte),
    (∀ v : Half, bufU16 buf 0 = .ok v → v ≠ p.sigMZ → load params p n buf = .failed .invalidHeader)
    ∧ (∀ off pe : Word, bufU16 buf 0 = .ok p.sigMZ → bufU32 buf 0x3C = .ok off →
      bufU32 buf off.toNat = .ok pe → pe ≠ p.sigPE → load params p n buf = .failed .invalidHeader)
    ∧ ∀ (off : Word) (magic : Half), bufU16 buf 0 = .ok p.sigMZ → bufU32 buf 0x3C = .ok off →
      bufU32 buf off.toNat = .ok p.sigPE → bufU16 buf (off.toNat + 24) = .ok magic →
      magic ≠ p.magicPE32 → load params p n buf = .failed .unsupported64Bit

/-- R264, R47 "After load" (flags, toggles, `running`, `halted`: D27, log entry 29): a loaded core
starts at `imageBase + entryPointRVA`, with stack and base pointer at `imageBase + 0x100000`, the other
registers zero, and meets the invariant; it is a legal launch state for whatever code stands in Memory
at that entry (R267; the entry itself "is not checked", R264). And R266: a load that is asked to
include a syscall hook never gives a core (D28, log entry 31). -/
def Obligations.LoadGivesLaunchState : Prop :=
  ∀ (params : Config.Params) (p : Config.LoaderParams) (n : Nat) (buf : List Byte) (s : State),
    params.opcodes.legal → n ≤ 2 ^ 32 → load params p n buf = .loaded s →
    p.syscallHook = none
      ∧ ∃ off imageBase entry : Word, bufU32 buf 0x3C = .ok off
      ∧ bufU32 buf (off.toNat + 52) = .ok imageBase ∧ bufU32 buf (off.toNat + 40) = .ok entry
      ∧ s.ip = imageBase + entry
      ∧ s.readReg .sp = imageBase + 0x100000 ∧ s.readReg .bp = imageBase + 0x100000
      ∧ (∀ r : Reg, r ≠ .sp → r ≠ .bp → s.readReg r = 0)
      ∧ s.flags = Flags.clear ∧ s.opsize = .bits32 ∧ s.addrsize = .bits32
      ∧ s.running = false ∧ s.halted = false
      ∧ s.hooks = Hooks.empty ∧ s.hookCalls = [] ∧ s.params = params
      ∧ s.mem.size = n ∧ s.Inv
      ∧ ∀ code : List Byte, code ≠ [] → s.codeAtIp code → s.launchable code

/-- R263 (sums unbounded: log entry 30): a section copy fails with `OutOfBounds` exactly when it would
run past either buffer, and otherwise puts the section's bytes at `imageBase + virtualAddress` and
changes no other byte. -/
def Obligations.SectionCopyPlacesBytes : Prop :=
  ∀ (buf : List Byte) (imageBase : Word) (d : Section) (m : Memory),
    (copySection buf imageBase d m = .error .outOfBounds ↔
      buf.length < d.rawFileOffset.toNat + d.rawSize.toNat
        ∨ m.size < imageBase.toNat + d.virtualAddress.toNat + d.rawSize.toNat)
    ∧ ∀ m' : Memory, copySection buf imageBase d m = .ok m' → m'.size = m.size
      ∧ (∀ k : Nat, k < d.rawSize.toNat →
        m'.byteAt (imageBase.toNat + d.virtualAddress.toNat + k)
          = buf.getD (d.rawFileOffset.toNat + k) 0)
      ∧ ∀ a : Nat, ¬ (imageBase.toNat + d.virtualAddress.toNat ≤ a
          ∧ a < imageBase.toNat + d.virtualAddress.toNat + d.rawSize.toNat) → m'.byteAt a = m.byteAt a
end

