-- ==== Sys2Proof/Laws/Memory.lean ====
section
/-! SUPPORT. Memory: what a write changes, read after write, and that every memory operation keeps
the canonical form. -/

namespace Sys2Proof.Machine

/-! ### Cell lists -/

theorem lookupCell_filter_ne (cells : List Host.Cell) (x y : Nat) :
    lookupCell (cells.filter (fun c => c.1 != x)) y
      = if y = x then Config.memoryFill else lookupCell cells y := by
  induction cells with
  | nil => simp [lookupCell]
  | cons c rest ih =>
    obtain ⟨a, v⟩ := c
    by_cases hax : a = x
    · subst hax
      by_cases hy : y = a
      · subst hy
        simpa using ih
      · simp [ih, hy, lookupCell, Ne.symm hy]
    · by_cases hay : a = y
      · subst hay
        simp [hax, lookupCell]
      · simp [hax, lookupCell, hay, ih]

theorem lookupCell_insertCell (cells : List Host.Cell) (x y : Nat) (v : Byte) :
    lookupCell (insertCell x v cells) y = if y = x then v else lookupCell cells y := by
  induction cells with
  | nil =>
    by_cases h : y = x
    · simp [insertCell, lookupCell, h]
    · simp [insertCell, lookupCell, h, Ne.symm h]
  | cons c rest ih =>
    obtain ⟨a, w⟩ := c
    unfold insertCell
    split
    · by_cases h : y = x
      · simp [lookupCell, h]
      · simp [lookupCell, h, Ne.symm h]
    · split
      · rename_i hxa
        subst hxa
        by_cases h : y = x
        · simp [lookupCell, h]
        · simp [lookupCell, h, Ne.symm h]
      · rename_i hxa
        by_cases h : y = x
        · subst h
          simp [lookupCell, ih, Ne.symm hxa]
        · by_cases hay : a = y
          · simp [lookupCell, hay, h]
          · simp [lookupCell, hay, ih, h]

/-- What one byte write changes, on any cell list. -/
theorem lookupCell_storeCell (cells : List Host.Cell) (x y : Nat) (v : Byte) :
    lookupCell (storeCell x v cells) y = if y = x then v else lookupCell cells y := by
  unfold storeCell
  split
  · rename_i hv
    rw [lookupCell_filter_ne, hv]
  · exact lookupCell_insertCell cells x y v

theorem mem_insertCell (cells : List Host.Cell) (x : Nat) (v : Byte) (c : Host.Cell)
    (h : c ∈ insertCell x v cells) : c = (x, v) ∨ c ∈ cells := by
  induction cells with
  | nil => simpa [insertCell] using h
  | cons d rest ih =>
    obtain ⟨a, w⟩ := d
    unfold insertCell at h
    split at h
    · simpa using h
    · split at h
      · rcases List.mem_cons.1 h with h | h
        · exact .inl h
        · exact .inr (List.mem_cons_of_mem _ h)
      · rcases List.mem_cons.1 h with h | h
        · exact .inr (h ▸ List.mem_cons_self)
        · rcases ih h with h | h
          · exact .inl h
          · exact .inr (List.mem_cons_of_mem _ h)

theorem insertCell_sorted (cells : List Host.Cell) (x : Nat) (v : Byte)
    (h : cells.Pairwise (fun c d => c.1 < d.1)) :
    (insertCell x v cells).Pairwise (fun c d => c.1 < d.1) := by
  induction cells with
  | nil => simp [insertCell]
  | cons d rest ih =>
    obtain ⟨a, w⟩ := d
    obtain ⟨hhead, htail⟩ := List.pairwise_cons.1 h
    unfold insertCell
    split
    · rename_i hxa
      refine List.pairwise_cons.2 ⟨?_, h⟩
      intro c hc
      rcases List.mem_cons.1 hc with hc | hc
      · simpa [hc] using hxa
      · exact lt_trans hxa (hhead c hc)
    · split
      · rename_i hxa
        subst hxa
        exact List.pairwise_cons.2 ⟨hhead, htail⟩
      · rename_i hnlt hne
        refine List.pairwise_cons.2 ⟨?_, ih htail⟩
        intro c hc
        rcases mem_insertCell rest x v c hc with hc | hc
        · simp only [hc]
          omega
        · exact hhead c hc

/-! ### One byte, then many -/

@[simp] theorem Memory.putByte_size (m : Memory) (a : Nat) (v : Byte) :
    (m.putByte a v).size = m.size := rfl

theorem Memory.byteAt_putByte (m : Memory) (a x : Nat) (v : Byte) :
    (m.putByte a v).byteAt x = if x = a then v else m.byteAt x :=
  lookupCell_storeCell m.cells a x v

theorem Memory.putByte_wf (m : Memory) (a : Nat) (v : Byte) (h : m.wf) (ha : a < m.size) :
    (m.putByte a v).wf := by
  obtain ⟨hsorted, hcells, hsize⟩ := h
  refine ⟨?_, ?_, hsize⟩
  · unfold Memory.putByte storeCell
    split
    · exact hsorted.filter _
    · exact insertCell_sorted _ _ _ hsorted
  · intro c hc
    unfold Memory.putByte storeCell at hc
    dsimp only at hc
    split at hc
    · exact hcells c (List.mem_of_mem_filter hc)
    · rename_i hv
      rcases mem_insertCell _ _ _ _ hc with hc | hc
      · exact hc ▸ ⟨hv, ha⟩
      · exact hcells c hc

@[simp] theorem Memory.putBytes_nil (m : Memory) (a : Nat) : m.putBytes a [] = m := rfl

@[simp] theorem Memory.putBytes_size (m : Memory) (a : Nat) (vs : List Byte) :
    (m.putBytes a vs).size = m.size := by
  induction vs generalizing m a with
  | nil => rfl
  | cons v vs ih => simp [Memory.putBytes, ih]

/-- What writing consecutive bytes changes. -/
theorem Memory.byteAt_putBytes (m : Memory) (a x : Nat) (vs : List Byte) :
    (m.putBytes a vs).byteAt x
      = if a ≤ x ∧ x < a + vs.length then vs.getD (x - a) 0 else m.byteAt x := by
  induction vs generalizing m a with
  | nil =>
    have h : ¬ (a ≤ x ∧ x < a + ([] : List Byte).length) := by
      simp only [List.length_nil]
      omega
    rw [if_neg h]
    rfl
  | cons v vs ih =>
    simp only [Memory.putBytes, ih, Memory.byteAt_putByte, List.length_cons]
    by_cases hx : x = a
    · subst hx
      have h1 : ¬ (x + 1 ≤ x ∧ x < x + 1 + vs.length) := by omega
      have h2 : x ≤ x ∧ x < x + (vs.length + 1) := by omega
      rw [if_neg h1, if_pos h2]
      simp
    · by_cases hin : a + 1 ≤ x ∧ x < a + 1 + vs.length
      · have h2 : a ≤ x ∧ x < a + (vs.length + 1) := by omega
        have h3 : x - a = (x - (a + 1)) + 1 := by omega
        rw [if_pos hin, if_pos h2, h3, List.getD_cons_succ]
      · have h2 : ¬ (a ≤ x ∧ x < a + (vs.length + 1)) := by omega
        rw [if_neg hin, if_neg h2, if_neg hx]

/-- A byte outside the written ones reads as before. -/
theorem Memory.byteAt_putBytes_outside (m : Memory) (a x : Nat) (vs : List Byte)
    (h : ¬ (a ≤ x ∧ x < a + vs.length)) : (m.putBytes a vs).byteAt x = m.byteAt x := by
  rw [Memory.byteAt_putBytes, if_neg h]

/-- Writing inside `[0, N)` keeps the canonical form. -/
theorem Memory.putBytes_wf (m : Memory) (a : Nat) (vs : List Byte) (h : m.wf)
    (ha : a + vs.length ≤ m.size) : (m.putBytes a vs).wf := by
  induction vs generalizing m a with
  | nil => exact h
  | cons v vs ih =>
    have hlen : a + (vs.length + 1) ≤ m.size := by simpa using ha
    refine ih (m.putByte a v) (a + 1) (m.putByte_wf a v h (by omega)) ?_
    rw [Memory.putByte_size]
    omega

/-! ### Runs of bytes -/

@[simp] theorem Memory.bytesFrom_length (m : Memory) (a n : Nat) : (m.bytesFrom a n).length = n := by
  induction n generalizing a with
  | zero => rfl
  | succ n ih => simp [Memory.bytesFrom, ih]

theorem Memory.bytesFrom_add (m : Memory) (a j k : Nat) :
    m.bytesFrom a (j + k) = m.bytesFrom a j ++ m.bytesFrom (a + j) k := by
  induction j generalizing a with
  | zero => simp [Memory.bytesFrom]
  | succ j ih =>
    have h : j + 1 + k = (j + k) + 1 := by omega
    have h' : a + (j + 1) = a + 1 + j := by omega
    simp [Memory.bytesFrom, h, ih, h']

/-! ### Byte order -/

@[simp] theorem bytes32_length (v : Word) : (bytes32 v).length = 4 := rfl

@[simp] theorem bytes16_length (v : Half) : (bytes16 v).length = 2 := rfl

/-- Assembling a word's own bytes gives the word (R66). -/
theorem le32_bytes (v : Word) :
    le32 (v.extractLsb' 0 8) (v.extractLsb' 8 8) (v.extractLsb' 16 8) (v.extractLsb' 24 8) = v := by
  apply BitVec.eq_of_getLsbD_eq
  intro i hi
  simp only [le32, BitVec.getLsbD_append, BitVec.getLsbD_extractLsb']
  rcases (by omega : i < 8 ∨ (8 ≤ i ∧ i < 16) ∨ (16 ≤ i ∧ i < 24) ∨ (24 ≤ i ∧ i < 32))
    with h | h | h | h
  · simp [h]
  · have h1 : ¬ i < 8 := by omega
    have h2 : i - 8 < 8 := by omega
    simp [h1, h2]
    congr 1
    omega
  · have h1 : ¬ i < 8 := by omega
    have h2 : ¬ i - 8 < 8 := by omega
    have h3 : i - 8 - 8 < 8 := by omega
    simp [h1, h2, h3]
    congr 1
    omega
  · have h1 : ¬ i < 8 := by omega
    have h2 : ¬ i - 8 < 8 := by omega
    have h3 : ¬ i - 8 - 8 < 8 := by omega
    have h4 : i - 8 - 8 - 8 < 8 := by omega
    simp [h1, h2, h3, h4]
    congr 1
    omega

/-- Assembling a half word's own bytes gives the half word (R66). -/
theorem le16_bytes (v : Half) : le16 (v.extractLsb' 0 8) (v.extractLsb' 8 8) = v := by
  apply BitVec.eq_of_getLsbD_eq
  intro i hi
  simp only [le16, BitVec.getLsbD_append, BitVec.getLsbD_extractLsb']
  by_cases h : i < 8
  · simp [h]
  · have h2 : i - 8 < 8 := by omega
    simp [h, h2]
    congr 1
    omega

/-- The bytes of an assembled word are the bytes it was assembled from. -/
theorem bytes32_le32 (b0 b1 b2 b3 : Byte) : bytes32 (le32 b0 b1 b2 b3) = [b0, b1, b2, b3] := by
  have key : ∀ (k : Nat) (c : Byte), (∀ i, i < 8 → (le32 b0 b1 b2 b3).getLsbD (k + i) = c.getLsbD i) →
      (le32 b0 b1 b2 b3).extractLsb' k 8 = c := by
    intro k c h
    apply BitVec.eq_of_getLsbD_eq
    intro i hi
    simp only [BitVec.getLsbD_extractLsb', hi, decide_true, Bool.true_and]
    exact h i hi
  simp only [bytes32, List.cons.injEq, and_true]
  refine ⟨key _ _ ?_, key _ _ ?_, key _ _ ?_, key _ _ ?_⟩ <;> intro i hi <;>
    simp only [le32, BitVec.getLsbD_append]
  · simp [hi]
  · have h1 : ¬ 8 + i < 8 := by omega
    have h2 : 8 + i - 8 = i := by omega
    simp [h1, h2, hi]
  · have h1 : ¬ 16 + i < 8 := by omega
    have h2 : ¬ 16 + i - 8 < 8 := by omega
    have h3 : 16 + i - 8 - 8 = i := by omega
    simp [h1, h2, h3, hi]
  · have h1 : ¬ 24 + i < 8 := by omega
    have h2 : ¬ 24 + i - 8 < 8 := by omega
    have h3 : ¬ 24 + i - 8 - 8 < 8 := by omega
    have h4 : 24 + i - 8 - 8 - 8 = i := by omega
    simp [h1, h2, h3, h4]

/-! ### The access primitives: one spec lemma each -/

theorem Memory.access_eq {α : Type} (m : Memory) (a w : Nat) (v : α) :
    m.access a w v = if a + w ≤ m.size then .ok v else .error (.outOfBounds a w) := by
  by_cases h : a + w ≤ m.size <;> simp [Memory.access, Memory.inBounds, h]

theorem Memory.access_ok_iff {α : Type} (m : Memory) (a w : Nat) (v x : α) :
    m.access a w v = .ok x ↔ a + w ≤ m.size ∧ v = x := by
  rw [Memory.access_eq]
  split <;> simp [*]

theorem Memory.access_error_iff {α : Type} (m : Memory) (a w : Nat) (v : α) (f : Failure) :
    m.access a w v = .error f ↔ ¬ a + w ≤ m.size ∧ f = .outOfBounds a w := by
  rw [Memory.access_eq]
  split <;> simp [*, eq_comm]

/-- The bytes a 32-bit write leaves (R65). -/
theorem Memory.byteAt_putBytes32 (m : Memory) (a k : Nat) (v : Word) (hk : k < 4) :
    (m.putBytes a (bytes32 v)).byteAt (a + k) = v.extractLsb' (8 * k) 8 := by
  have h : a ≤ a + k ∧ a + k < a + (bytes32 v).length := by
    rw [bytes32_length]
    omega
  have hs : a + k - a = k := by omega
  rw [Memory.byteAt_putBytes, if_pos h, hs]
  rcases (by omega : k = 0 ∨ k = 1 ∨ k = 2 ∨ k = 3) with h | h | h | h <;> subst h <;> rfl

/-- Every write that succeeds keeps the canonical form and the capacity (R60). -/
theorem Memory.write8_wf (m m' : Memory) (a : Nat) (v : Byte) (h : m.wf)
    (hw : m.write8 a v = .ok m') : m'.wf ∧ m'.size = m.size := by
  obtain ⟨hb, rfl⟩ := (m.access_ok_iff a 1 _ m').1 hw
  exact ⟨m.putBytes_wf a _ h hb, m.putBytes_size a _⟩

theorem Memory.write16_wf (m m' : Memory) (a : Nat) (v : Half) (h : m.wf)
    (hw : m.write16 a v = .ok m') : m'.wf ∧ m'.size = m.size := by
  obtain ⟨hb, rfl⟩ := (m.access_ok_iff a 2 _ m').1 hw
  exact ⟨m.putBytes_wf a _ h hb, m.putBytes_size a _⟩

theorem Memory.write32_wf (m m' : Memory) (a : Nat) (v : Word) (h : m.wf)
    (hw : m.write32 a v = .ok m') : m'.wf ∧ m'.size = m.size := by
  obtain ⟨hb, rfl⟩ := (m.access_ok_iff a 4 _ m').1 hw
  exact ⟨m.putBytes_wf a _ h hb, m.putBytes_size a _⟩

/-- A 32-bit read of bytes just written as 32 bits (R67). -/
theorem Memory.read32_putBytes32 (m : Memory) (a : Nat) (v : Word) (h : a + 4 ≤ m.size) :
    (m.putBytes a (bytes32 v)).read32 a = .ok v := by
  have h0 := m.byteAt_putBytes32 a 0 v (by omega)
  have h1 := m.byteAt_putBytes32 a 1 v (by omega)
  have h2 := m.byteAt_putBytes32 a 2 v (by omega)
  have h3 := m.byteAt_putBytes32 a 3 v (by omega)
  rw [Nat.add_zero] at h0
  unfold Memory.read32
  rw [Memory.access_ok_iff, Memory.putBytes_size, h0, h1, h2, h3]
  exact ⟨h, le32_bytes v⟩

/-- A 32-bit read sees only its four bytes and the capacity (R64). -/
theorem Memory.read32_congr (m m' : Memory) (a : Nat) (hs : m'.size = m.size)
    (hb : ∀ k, k < 4 → m'.byteAt (a + k) = m.byteAt (a + k)) : m'.read32 a = m.read32 a := by
  have h0 := hb 0 (by omega)
  have h1 := hb 1 (by omega)
  have h2 := hb 2 (by omega)
  have h3 := hb 3 (by omega)
  rw [Nat.add_zero] at h0
  simp only [Memory.read32, Memory.access_eq, hs, h0, h1, h2, h3]

end Sys2Proof.Machine
end

