-- ==== Sys2Proof/Laws/Decode.lean ====
section
/-! SUPPORT. The decoder: the lookup table of opcode bytes, what `decode` and `decodeStep` need of
their bytes when they succeed, and the shape of an encoding. -/

namespace Sys2Proof

@[simp] theorem Reg.ofBits_bits (r : Reg) : Reg.ofBits r.bits = r := by
  cases r <;> rfl

theorem Reg.mem_all (r : Reg) : r ∈ Reg.all := by
  cases r <;> decide

/-- Every row is in the table. -/
theorem Opcode.mem_all (k : Opcode) : k ∈ Opcode.all := by
  rcases k with p | _ | r | _ | _ | _ | _ | r | r | _
  · cases p <;> decide
  · decide
  · cases r <;> decide
  · decide
  · decide
  · decide
  · decide
  · cases r <;> decide
  · cases r <;> decide
  · decide

/-! ### The lookup table -/

/-- In a list whose keys are all different, a search by an entry's key finds that entry. -/
theorem find_of_nodup {α : Type} (f : α → Byte) (l : List α) (k : α) (h : (l.map f).Nodup)
    (hk : k ∈ l) : l.find? (fun j => f j == f k) = some k := by
  induction l with
  | nil => cases hk
  | cons a l ih =>
    obtain ⟨ha, hl⟩ := List.nodup_cons.1 h
    by_cases hak : f a = f k
    · rcases List.mem_cons.1 hk with rfl | hk'
      · simp
      · exact absurd (hak ▸ List.mem_map_of_mem hk') ha
    · rcases List.mem_cons.1 hk with rfl | hk'
      · exact absurd rfl hak
      · rw [List.find?_cons_of_neg (by simpa using hak)]
        exact ih hl hk'

/-- On legal open bytes a row's byte selects that row (R145). -/
theorem rowOf_byteOf (o : Config.Opcodes) (k : Opcode) (h : o.legal) :
    o.rowOf (o.byteOf k) = some k :=
  find_of_nodup o.byteOf Opcode.all k h.1 k.mem_all

/-- The row a byte selects has that byte, whatever the open bytes. -/
theorem byteOf_of_rowOf (o : Config.Opcodes) (b : Byte) (k : Opcode) (h : o.rowOf b = some k) :
    o.byteOf k = b := by
  simpa using List.find?_some h

/-- A byte selects no row exactly when it is unassigned (R103). -/
theorem rowOf_eq_none (o : Config.Opcodes) (b : Byte) :
    o.rowOf b = none ↔ Machine.unassigned o b = true := by
  simp [Config.Opcodes.rowOf, Machine.unassigned, bne]

/-- On legal open bytes a byte is a row's exactly when it selects that row. -/
theorem rowOf_eq_some (o : Config.Opcodes) (b : Byte) (k : Opcode) (h : o.legal) :
    o.rowOf b = some k ↔ o.byteOf k = b :=
  ⟨byteOf_of_rowOf o b k, fun hb => hb ▸ rowOf_byteOf o k h⟩

/-! ### Prefixes -/

theorem Opcode.override?_eq_some (k : Opcode) (p : Override) (h : k.override? = some p) :
    k = .override p := by
  cases k <;> simp_all [Opcode.override?]

/-- A byte is a prefix exactly when it selects that prefix's row (R101). -/
theorem prefixOf_eq_some (o : Config.Opcodes) (b : Byte) (p : Override) :
    o.prefixOf b = some p ↔ o.rowOf b = some (.override p) := by
  refine ⟨fun h => ?_, fun h => by simp [Config.Opcodes.prefixOf, h, Opcode.override?]⟩
  obtain ⟨k, hk, hp⟩ := Option.bind_eq_some_iff.1 h
  rw [hk, k.override?_eq_some p hp]

theorem prefixOf_byte (o : Config.Opcodes) (p : Override) (h : o.legal) :
    o.prefixOf (o.byteOf (.override p)) = some p :=
  (prefixOf_eq_some o _ p).2 (rowOf_byteOf o _ h)

theorem prefixOf_of_unassigned (o : Config.Opcodes) (b : Byte)
    (h : Machine.unassigned o b = true) : o.prefixOf b = none := by
  simp [Config.Opcodes.prefixOf, (rowOf_eq_none o b).2 h]

theorem prefixOf_of_row (o : Config.Opcodes) (b : Byte) (k : Opcode) (h : o.rowOf b = some k)
    (hk : k.override? = none) : o.prefixOf b = none := by
  simp [Config.Opcodes.prefixOf, h, hk]

theorem Opcode.override?_of_hasImm32 (k : Opcode) (h : k.hasImm32 = true) : k.override? = none := by
  cases k <;> simp_all [Opcode.hasImm32, Opcode.override?]

/-- A row that is no prefix gives an instruction that is none. -/
theorem Opcode.instr_isPrefix (k : Opcode) (v : Word) :
    (k.instr v).isPrefix = k.override?.isSome := by
  rcases k with p | _ | r | _ | _ | _ | _ | r | r | _
  · cases p <;> rfl
  · rfl
  · cases r <;> rfl
  · rfl
  · rfl
  · rfl
  · rfl
  · cases r <;> rfl
  · cases r <;> rfl
  · rfl

/-! ### The rows an operand follows (R94, R95) -/

theorem takesOperand_byteOf (o : Config.Opcodes) (k : Opcode) (h : k.hasImm32 = true) :
    Machine.takesOperand o (o.byteOf k) = true := by
  rcases k with p | _ | r | _ | _ | _ | _ | r | r | _
  · cases h
  · cases h
  · have hr : (Config.opcMovBase + r.bits.setWidth 8).toNat = 0xB8 + r.bits.toNat := by
      cases r <;> rfl
    simp only [Machine.takesOperand, Config.Opcodes.byteOf, groupByte, hr]
    have hlt := r.bits.isLt
    have h1 : 0xB8 ≤ 0xB8 + r.bits.toNat := by omega
    have h2 : 0xB8 + r.bits.toNat ≤ 0xBF := by omega
    simp [h2]
  · simp [Machine.takesOperand, Config.Opcodes.byteOf, Config.opcAddAccImm]
  · simp [Machine.takesOperand, Config.Opcodes.byteOf]
  · simp [Machine.takesOperand, Config.Opcodes.byteOf]
  · cases h
  · cases h
  · cases h
  · cases h

/-- A property of every byte follows from its 256 cases. -/
theorem byte_forall (P : Byte → Prop) (h : ∀ n : Fin 256, P (BitVec.ofFin n)) (b : Byte) : P b :=
  h b.toFin

/-- A byte that an operand follows is one of the operand rows'. -/
theorem takesOperand_cases (o : Config.Opcodes) (b : Byte) (h : Machine.takesOperand o b = true) :
    ∃ k : Opcode, k.hasImm32 = true ∧ o.byteOf k = b := by
  have hmov : ∀ b : Byte, 0xB8 ≤ b.toNat ∧ b.toNat ≤ 0xBF →
      groupByte Config.opcMovBase (Reg.ofBits (b.extractLsb' 0 3)) = b :=
    byte_forall _ (by decide +kernel)
  simp only [Machine.takesOperand, Bool.or_eq_true, Bool.and_eq_true, beq_iff_eq,
    decide_eq_true_eq] at h
  rcases h with ((h | h) | h) | h
  · exact ⟨.addAcc, rfl, BitVec.eq_of_toNat_eq h.symm⟩
  · exact ⟨.call, rfl, h.symm⟩
  · exact ⟨.jmp, rfl, h.symm⟩
  · exact ⟨.mov _, rfl, hmov b h⟩

/-- On legal open bytes the rows an operand follows are those R94 and R95 list (R102). -/
theorem takesOperand_eq (o : Config.Opcodes) (b : Byte) (k : Opcode) (hl : o.legal)
    (h : o.rowOf b = some k) : Machine.takesOperand o b = k.hasImm32 := by
  cases hk : k.hasImm32 with
  | true => rw [← byteOf_of_rowOf o b k h, takesOperand_byteOf o k hk]
  | false =>
    cases ht : Machine.takesOperand o b with
    | false => rfl
    | true =>
      obtain ⟨j, hj, hb⟩ := takesOperand_cases o b ht
      rw [(rowOf_eq_some o b j hl).2 hb] at h
      rw [Option.some.inj h, hk] at hj
      cases hj

/-! ### What decoding needs -/

/-- What `decode` needs of its bytes when it succeeds (R90, R102). -/
theorem decode_ok (o : Config.Opcodes) (b : Byte) (rest rest' : List Byte) (i : Instr)
    (h : decode o (b :: rest) = .ok (i, rest')) :
    ∃ k : Opcode, o.rowOf b = some k
      ∧ ((k.hasImm32 = true ∧ ∃ i0 i1 i2 i3 : Byte, rest = i0 :: i1 :: i2 :: i3 :: rest'
          ∧ i = k.instr (le32 i0 i1 i2 i3))
        ∨ (k.hasImm32 = false ∧ rest = rest' ∧ i = k.instr 0)) := by
  cases hr : o.rowOf b with
  | none => simp [decode, hr] at h
  | some k =>
    refine ⟨k, rfl, ?_⟩
    simp only [decode, hr] at h
    split at h
    · rename_i hk
      simp only [Except.ok.injEq, Prod.mk.injEq] at h
      exact .inr ⟨hk, h.2, h.1.symm⟩
    · rename_i hk
      simp only [Except.ok.injEq, Prod.mk.injEq] at h
      obtain ⟨rfl, rfl⟩ := h
      exact .inl ⟨hk, _, _, _, _, rfl, rfl⟩
    · cases h

/-- The bytes of an operand in front of a list decode to it (R94). -/
theorem decode_operand_bytes (o : Config.Opcodes) (b : Byte) (k : Opcode) (v : Word)
    (rest : List Byte) (hr : o.rowOf b = some k) (hk : k.hasImm32 = true) :
    decode o (b :: bytes32 v ++ rest) = .ok (k.instr v, rest) := by
  simp [decode, hr, hk, bytes32, Machine.le32_bytes]

theorem decode_plain (o : Config.Opcodes) (b : Byte) (k : Opcode) (rest : List Byte)
    (hr : o.rowOf b = some k) (hk : k.hasImm32 = false) :
    decode o (b :: rest) = .ok (k.instr 0, rest) := by
  simp [decode, hr, hk]

/-- What `decodeStep` needs of its bytes when it succeeds: a prefix and then a step's instruction, or
an opcode that is no prefix (R102). -/
theorem decodeStep_ok (o : Config.Opcodes) (b : Byte) (bs rest : List Byte) (c : StepCode)
    (h : decodeStep o (b :: bs) = .ok (c, rest)) :
    (∃ (p : Override) (c' : StepCode), o.prefixOf b = some p ∧ decodeStep o bs = .ok (c', rest)
        ∧ c = { c' with prefixes := p :: c'.prefixes })
      ∨ (o.prefixOf b = none ∧ decode o (b :: bs) = .ok (c.core, rest) ∧ c.prefixes = []) := by
  simp only [decodeStep] at h
  cases hp : o.prefixOf b with
  | some p =>
    simp only [hp] at h
    cases hd : decodeStep o bs with
    | error e => simp [hd] at h
    | ok v =>
      obtain ⟨c', r⟩ := v
      simp only [hd, Except.ok.injEq, Prod.mk.injEq] at h
      exact .inl ⟨p, c', rfl, by rw [h.2], h.1.symm⟩
  | none =>
    simp only [hp] at h
    cases hd : decode o (b :: bs) with
    | error e => simp [hd] at h
    | ok v =>
      obtain ⟨i, r⟩ := v
      simp only [hd, Except.ok.injEq, Prod.mk.injEq] at h
      obtain ⟨rfl, rfl⟩ := h
      exact .inr ⟨rfl, rfl, rfl⟩

/-! ### The shape of an encoding -/

/-- An operand row's encoding is its byte and the operand (R94, R95). -/
theorem encode_instr_operand (o : Config.Opcodes) (k : Opcode) (v : Word)
    (h : k.hasImm32 = true) : encode o (k.instr v) = o.byteOf k :: bytes32 v := by
  rcases k with p | _ | r | _ | _ | _ | _ | r | r | _ <;> first | rfl | (cases r <;> rfl) | cases h

/-- Another row's encoding is its byte alone (R92, R93). -/
theorem encode_instr_plain (o : Config.Opcodes) (k : Opcode) (v : Word)
    (h : k.hasImm32 = false) : encode o (k.instr v) = [o.byteOf k] := by
  rcases k with p | _ | r | _ | _ | _ | _ | r | r | _ <;>
    first | rfl | (cases p <;> rfl) | (cases r <;> rfl) | cases h

/-- The row and operand of an instruction. -/
theorem Instr.exists_opcode (i : Instr) : ∃ (k : Opcode) (v : Word), i = k.instr v := by
  cases i
  case addAcc v => exact ⟨.addAcc, v, rfl⟩
  case call v => exact ⟨.call, v, rfl⟩
  case jmp v => exact ⟨.jmp, v, rfl⟩
  case nop => exact ⟨.nop, 0, rfl⟩
  case ret => exact ⟨.ret, 0, rfl⟩
  case hlt => exact ⟨.hlt, 0, rfl⟩
  case opsize => exact ⟨.override .opsize, 0, rfl⟩
  case adsize => exact ⟨.override .adsize, 0, rfl⟩
  case movAcc v => exact ⟨.mov .acc, v, rfl⟩
  case movCnt v => exact ⟨.mov .cnt, v, rfl⟩
  case movDat v => exact ⟨.mov .dat, v, rfl⟩
  case movBas v => exact ⟨.mov .bas, v, rfl⟩
  case movSp v => exact ⟨.mov .sp, v, rfl⟩
  case movBp v => exact ⟨.mov .bp, v, rfl⟩
  case movSi v => exact ⟨.mov .si, v, rfl⟩
  case movDi v => exact ⟨.mov .di, v, rfl⟩
  case pushAcc => exact ⟨.push .acc, 0, rfl⟩
  case pushCnt => exact ⟨.push .cnt, 0, rfl⟩
  case pushDat => exact ⟨.push .dat, 0, rfl⟩
  case pushBas => exact ⟨.push .bas, 0, rfl⟩
  case pushSp => exact ⟨.push .sp, 0, rfl⟩
  case pushBp => exact ⟨.push .bp, 0, rfl⟩
  case pushSi => exact ⟨.push .si, 0, rfl⟩
  case pushDi => exact ⟨.push .di, 0, rfl⟩
  case popAcc => exact ⟨.pop .acc, 0, rfl⟩
  case popCnt => exact ⟨.pop .cnt, 0, rfl⟩
  case popDat => exact ⟨.pop .dat, 0, rfl⟩
  case popBas => exact ⟨.pop .bas, 0, rfl⟩
  case popSp => exact ⟨.pop .sp, 0, rfl⟩
  case popBp => exact ⟨.pop .bp, 0, rfl⟩
  case popSi => exact ⟨.pop .si, 0, rfl⟩
  case popDi => exact ⟨.pop .di, 0, rfl⟩

/-- On legal open bytes a row's encoding decodes to it, whatever follows. -/
theorem decode_encode (o : Config.Opcodes) (i : Instr) (rest : List Byte) (h : o.legal) :
    decode o (encode o i ++ rest) = .ok (i, rest) := by
  obtain ⟨k, v, rfl⟩ := i.exists_opcode
  cases hk : k.hasImm32 with
  | true =>
    rw [encode_instr_operand o k v hk]
    exact decode_operand_bytes o _ k v rest (rowOf_byteOf o k h) hk
  | false =>
    have h0 : k.instr v = k.instr 0 := by cases k <;> first | rfl | cases hk
    rw [encode_instr_plain o k v hk, h0]
    exact decode_plain o _ k rest (rowOf_byteOf o k h) hk

/-- What decodes is the encoding of what it decodes to, whatever the open bytes. -/
theorem encode_of_decode (o : Config.Opcodes) (bytes rest : List Byte) (i : Instr)
    (h : decode o bytes = .ok (i, rest)) : bytes = encode o i ++ rest := by
  cases bytes with
  | nil => cases h
  | cons b bs =>
    obtain ⟨k, hr, ⟨hk, i0, i1, i2, i3, hbs, rfl⟩ | ⟨hk, hbs, rfl⟩⟩ := decode_ok o b bs rest i h
    · rw [encode_instr_operand o k _ hk, Machine.bytes32_le32, byteOf_of_rowOf o b k hr, hbs]
      rfl
    · rw [encode_instr_plain o k _ hk, byteOf_of_rowOf o b k hr, hbs]
      rfl

end Sys2Proof
end

