-- ==== Sys2Proof/Laws/State.lean ====
section
/-! SUPPORT. One lemma per field per update of State (each by rfl), and the register bank's read
after write. -/

namespace Sys2Proof.Machine

/-! ### setRegs -/

@[simp] theorem State.setRegs_regs (s : State) (v : Regs) : (s.setRegs v).regs = v := rfl
@[simp] theorem State.setRegs_ip (s : State) (v : Regs) : (s.setRegs v).ip = s.ip := rfl
@[simp] theorem State.setRegs_flags (s : State) (v : Regs) : (s.setRegs v).flags = s.flags := rfl
@[simp] theorem State.setRegs_running (s : State) (v : Regs) : (s.setRegs v).running = s.running := rfl
@[simp] theorem State.setRegs_halted (s : State) (v : Regs) : (s.setRegs v).halted = s.halted := rfl
@[simp] theorem State.setRegs_opsize (s : State) (v : Regs) : (s.setRegs v).opsize = s.opsize := rfl
@[simp] theorem State.setRegs_addrsize (s : State) (v : Regs) : (s.setRegs v).addrsize = s.addrsize := rfl
@[simp] theorem State.setRegs_hooks (s : State) (v : Regs) : (s.setRegs v).hooks = s.hooks := rfl
@[simp] theorem State.setRegs_mem (s : State) (v : Regs) : (s.setRegs v).mem = s.mem := rfl
@[simp] theorem State.setRegs_params (s : State) (v : Regs) : (s.setRegs v).params = s.params := rfl
@[simp] theorem State.setRegs_hookCalls (s : State) (v : Regs) : (s.setRegs v).hookCalls = s.hookCalls := rfl

/-! ### setIp -/

@[simp] theorem State.setIp_regs (s : State) (v : Word) : (s.setIp v).regs = s.regs := rfl
@[simp] theorem State.setIp_ip (s : State) (v : Word) : (s.setIp v).ip = v := rfl
@[simp] theorem State.setIp_flags (s : State) (v : Word) : (s.setIp v).flags = s.flags := rfl
@[simp] theorem State.setIp_running (s : State) (v : Word) : (s.setIp v).running = s.running := rfl
@[simp] theorem State.setIp_halted (s : State) (v : Word) : (s.setIp v).halted = s.halted := rfl
@[simp] theorem State.setIp_opsize (s : State) (v : Word) : (s.setIp v).opsize = s.opsize := rfl
@[simp] theorem State.setIp_addrsize (s : State) (v : Word) : (s.setIp v).addrsize = s.addrsize := rfl
@[simp] theorem State.setIp_hooks (s : State) (v : Word) : (s.setIp v).hooks = s.hooks := rfl
@[simp] theorem State.setIp_mem (s : State) (v : Word) : (s.setIp v).mem = s.mem := rfl
@[simp] theorem State.setIp_params (s : State) (v : Word) : (s.setIp v).params = s.params := rfl
@[simp] theorem State.setIp_hookCalls (s : State) (v : Word) : (s.setIp v).hookCalls = s.hookCalls := rfl

/-! ### setFlags -/

@[simp] theorem State.setFlags_regs (s : State) (v : Flags) : (s.setFlags v).regs = s.regs := rfl
@[simp] theorem State.setFlags_ip (s : State) (v : Flags) : (s.setFlags v).ip = s.ip := rfl
@[simp] theorem State.setFlags_flags (s : State) (v : Flags) : (s.setFlags v).flags = v := rfl
@[simp] theorem State.setFlags_running (s : State) (v : Flags) : (s.setFlags v).running = s.running := rfl
@[simp] theorem State.setFlags_halted (s : State) (v : Flags) : (s.setFlags v).halted = s.halted := rfl
@[simp] theorem State.setFlags_opsize (s : State) (v : Flags) : (s.setFlags v).opsize = s.opsize := rfl
@[simp] theorem State.setFlags_addrsize (s : State) (v : Flags) : (s.setFlags v).addrsize = s.addrsize := rfl
@[simp] theorem State.setFlags_hooks (s : State) (v : Flags) : (s.setFlags v).hooks = s.hooks := rfl
@[simp] theorem State.setFlags_mem (s : State) (v : Flags) : (s.setFlags v).mem = s.mem := rfl
@[simp] theorem State.setFlags_params (s : State) (v : Flags) : (s.setFlags v).params = s.params := rfl
@[simp] theorem State.setFlags_hookCalls (s : State) (v : Flags) : (s.setFlags v).hookCalls = s.hookCalls := rfl

/-! ### setRunning -/

@[simp] theorem State.setRunning_regs (s : State) (v : Bool) : (s.setRunning v).regs = s.regs := rfl
@[simp] theorem State.setRunning_ip (s : State) (v : Bool) : (s.setRunning v).ip = s.ip := rfl
@[simp] theorem State.setRunning_flags (s : State) (v : Bool) : (s.setRunning v).flags = s.flags := rfl
@[simp] theorem State.setRunning_running (s : State) (v : Bool) : (s.setRunning v).running = v := rfl
@[simp] theorem State.setRunning_halted (s : State) (v : Bool) : (s.setRunning v).halted = s.halted := rfl
@[simp] theorem State.setRunning_opsize (s : State) (v : Bool) : (s.setRunning v).opsize = s.opsize := rfl
@[simp] theorem State.setRunning_addrsize (s : State) (v : Bool) : (s.setRunning v).addrsize = s.addrsize := rfl
@[simp] theorem State.setRunning_hooks (s : State) (v : Bool) : (s.setRunning v).hooks = s.hooks := rfl
@[simp] theorem State.setRunning_mem (s : State) (v : Bool) : (s.setRunning v).mem = s.mem := rfl
@[simp] theorem State.setRunning_params (s : State) (v : Bool) : (s.setRunning v).params = s.params := rfl
@[simp] theorem State.setRunning_hookCalls (s : State) (v : Bool) : (s.setRunning v).hookCalls = s.hookCalls := rfl

/-! ### setHalted -/

@[simp] theorem State.setHalted_regs (s : State) (v : Bool) : (s.setHalted v).regs = s.regs := rfl
@[simp] theorem State.setHalted_ip (s : State) (v : Bool) : (s.setHalted v).ip = s.ip := rfl
@[simp] theorem State.setHalted_flags (s : State) (v : Bool) : (s.setHalted v).flags = s.flags := rfl
@[simp] theorem State.setHalted_running (s : State) (v : Bool) : (s.setHalted v).running = s.running := rfl
@[simp] theorem State.setHalted_halted (s : State) (v : Bool) : (s.setHalted v).halted = v := rfl
@[simp] theorem State.setHalted_opsize (s : State) (v : Bool) : (s.setHalted v).opsize = s.opsize := rfl
@[simp] theorem State.setHalted_addrsize (s : State) (v : Bool) : (s.setHalted v).addrsize = s.addrsize := rfl
@[simp] theorem State.setHalted_hooks (s : State) (v : Bool) : (s.setHalted v).hooks = s.hooks := rfl
@[simp] theorem State.setHalted_mem (s : State) (v : Bool) : (s.setHalted v).mem = s.mem := rfl
@[simp] theorem State.setHalted_params (s : State) (v : Bool) : (s.setHalted v).params = s.params := rfl
@[simp] theorem State.setHalted_hookCalls (s : State) (v : Bool) : (s.setHalted v).hookCalls = s.hookCalls := rfl

/-! ### setOpsize -/

@[simp] theorem State.setOpsize_regs (s : State) (v : Toggle) : (s.setOpsize v).regs = s.regs := rfl
@[simp] theorem State.setOpsize_ip (s : State) (v : Toggle) : (s.setOpsize v).ip = s.ip := rfl
@[simp] theorem State.setOpsize_flags (s : State) (v : Toggle) : (s.setOpsize v).flags = s.flags := rfl
@[simp] theorem State.setOpsize_running (s : State) (v : Toggle) : (s.setOpsize v).running = s.running := rfl
@[simp] theorem State.setOpsize_halted (s : State) (v : Toggle) : (s.setOpsize v).halted = s.halted := rfl
@[simp] theorem State.setOpsize_opsize (s : State) (v : Toggle) : (s.setOpsize v).opsize = v := rfl
@[simp] theorem State.setOpsize_addrsize (s : State) (v : Toggle) : (s.setOpsize v).addrsize = s.addrsize := rfl
@[simp] theorem State.setOpsize_hooks (s : State) (v : Toggle) : (s.setOpsize v).hooks = s.hooks := rfl
@[simp] theorem State.setOpsize_mem (s : State) (v : Toggle) : (s.setOpsize v).mem = s.mem := rfl
@[simp] theorem State.setOpsize_params (s : State) (v : Toggle) : (s.setOpsize v).params = s.params := rfl
@[simp] theorem State.setOpsize_hookCalls (s : State) (v : Toggle) : (s.setOpsize v).hookCalls = s.hookCalls := rfl

/-! ### setAddrsize -/

@[simp] theorem State.setAddrsize_regs (s : State) (v : Toggle) : (s.setAddrsize v).regs = s.regs := rfl
@[simp] theorem State.setAddrsize_ip (s : State) (v : Toggle) : (s.setAddrsize v).ip = s.ip := rfl
@[simp] theorem State.setAddrsize_flags (s : State) (v : Toggle) : (s.setAddrsize v).flags = s.flags := rfl
@[simp] theorem State.setAddrsize_running (s : State) (v : Toggle) : (s.setAddrsize v).running = s.running := rfl
@[simp] theorem State.setAddrsize_halted (s : State) (v : Toggle) : (s.setAddrsize v).halted = s.halted := rfl
@[simp] theorem State.setAddrsize_opsize (s : State) (v : Toggle) : (s.setAddrsize v).opsize = s.opsize := rfl
@[simp] theorem State.setAddrsize_addrsize (s : State) (v : Toggle) : (s.setAddrsize v).addrsize = v := rfl
@[simp] theorem State.setAddrsize_hooks (s : State) (v : Toggle) : (s.setAddrsize v).hooks = s.hooks := rfl
@[simp] theorem State.setAddrsize_mem (s : State) (v : Toggle) : (s.setAddrsize v).mem = s.mem := rfl
@[simp] theorem State.setAddrsize_params (s : State) (v : Toggle) : (s.setAddrsize v).params = s.params := rfl
@[simp] theorem State.setAddrsize_hookCalls (s : State) (v : Toggle) : (s.setAddrsize v).hookCalls = s.hookCalls := rfl

/-! ### setHooks -/

@[simp] theorem State.setHooks_regs (s : State) (v : Hooks) : (s.setHooks v).regs = s.regs := rfl
@[simp] theorem State.setHooks_ip (s : State) (v : Hooks) : (s.setHooks v).ip = s.ip := rfl
@[simp] theorem State.setHooks_flags (s : State) (v : Hooks) : (s.setHooks v).flags = s.flags := rfl
@[simp] theorem State.setHooks_running (s : State) (v : Hooks) : (s.setHooks v).running = s.running := rfl
@[simp] theorem State.setHooks_halted (s : State) (v : Hooks) : (s.setHooks v).halted = s.halted := rfl
@[simp] theorem State.setHooks_opsize (s : State) (v : Hooks) : (s.setHooks v).opsize = s.opsize := rfl
@[simp] theorem State.setHooks_addrsize (s : State) (v : Hooks) : (s.setHooks v).addrsize = s.addrsize := rfl
@[simp] theorem State.setHooks_hooks (s : State) (v : Hooks) : (s.setHooks v).hooks = v := rfl
@[simp] theorem State.setHooks_mem (s : State) (v : Hooks) : (s.setHooks v).mem = s.mem := rfl
@[simp] theorem State.setHooks_params (s : State) (v : Hooks) : (s.setHooks v).params = s.params := rfl
@[simp] theorem State.setHooks_hookCalls (s : State) (v : Hooks) : (s.setHooks v).hookCalls = s.hookCalls := rfl

/-! ### setMem -/

@[simp] theorem State.setMem_regs (s : State) (v : Memory) : (s.setMem v).regs = s.regs := rfl
@[simp] theorem State.setMem_ip (s : State) (v : Memory) : (s.setMem v).ip = s.ip := rfl
@[simp] theorem State.setMem_flags (s : State) (v : Memory) : (s.setMem v).flags = s.flags := rfl
@[simp] theorem State.setMem_running (s : State) (v : Memory) : (s.setMem v).running = s.running := rfl
@[simp] theorem State.setMem_halted (s : State) (v : Memory) : (s.setMem v).halted = s.halted := rfl
@[simp] theorem State.setMem_opsize (s : State) (v : Memory) : (s.setMem v).opsize = s.opsize := rfl
@[simp] theorem State.setMem_addrsize (s : State) (v : Memory) : (s.setMem v).addrsize = s.addrsize := rfl
@[simp] theorem State.setMem_hooks (s : State) (v : Memory) : (s.setMem v).hooks = s.hooks := rfl
@[simp] theorem State.setMem_mem (s : State) (v : Memory) : (s.setMem v).mem = v := rfl
@[simp] theorem State.setMem_params (s : State) (v : Memory) : (s.setMem v).params = s.params := rfl
@[simp] theorem State.setMem_hookCalls (s : State) (v : Memory) : (s.setMem v).hookCalls = s.hookCalls := rfl

/-! ### addCall -/

@[simp] theorem State.addCall_regs (s : State) (c : HookCall) : (s.addCall c).regs = s.regs := rfl
@[simp] theorem State.addCall_ip (s : State) (c : HookCall) : (s.addCall c).ip = s.ip := rfl
@[simp] theorem State.addCall_flags (s : State) (c : HookCall) : (s.addCall c).flags = s.flags := rfl
@[simp] theorem State.addCall_running (s : State) (c : HookCall) : (s.addCall c).running = s.running := rfl
@[simp] theorem State.addCall_halted (s : State) (c : HookCall) : (s.addCall c).halted = s.halted := rfl
@[simp] theorem State.addCall_opsize (s : State) (c : HookCall) : (s.addCall c).opsize = s.opsize := rfl
@[simp] theorem State.addCall_addrsize (s : State) (c : HookCall) : (s.addCall c).addrsize = s.addrsize := rfl
@[simp] theorem State.addCall_hooks (s : State) (c : HookCall) : (s.addCall c).hooks = s.hooks := rfl
@[simp] theorem State.addCall_mem (s : State) (c : HookCall) : (s.addCall c).mem = s.mem := rfl
@[simp] theorem State.addCall_params (s : State) (c : HookCall) : (s.addCall c).params = s.params := rfl
@[simp] theorem State.addCall_hookCalls (s : State) (c : HookCall) : (s.addCall c).hookCalls = s.hookCalls ++ [c] := rfl

/-! ### writeReg -/

@[simp] theorem State.writeReg_regs (s : State) (r : Reg) (v : Word) : (s.writeReg r v).regs = s.regs.set r v := rfl
@[simp] theorem State.writeReg_ip (s : State) (r : Reg) (v : Word) : (s.writeReg r v).ip = s.ip := rfl
@[simp] theorem State.writeReg_flags (s : State) (r : Reg) (v : Word) : (s.writeReg r v).flags = s.flags := rfl
@[simp] theorem State.writeReg_running (s : State) (r : Reg) (v : Word) : (s.writeReg r v).running = s.running := rfl
@[simp] theorem State.writeReg_halted (s : State) (r : Reg) (v : Word) : (s.writeReg r v).halted = s.halted := rfl
@[simp] theorem State.writeReg_opsize (s : State) (r : Reg) (v : Word) : (s.writeReg r v).opsize = s.opsize := rfl
@[simp] theorem State.writeReg_addrsize (s : State) (r : Reg) (v : Word) : (s.writeReg r v).addrsize = s.addrsize := rfl
@[simp] theorem State.writeReg_hooks (s : State) (r : Reg) (v : Word) : (s.writeReg r v).hooks = s.hooks := rfl
@[simp] theorem State.writeReg_mem (s : State) (r : Reg) (v : Word) : (s.writeReg r v).mem = s.mem := rfl
@[simp] theorem State.writeReg_params (s : State) (r : Reg) (v : Word) : (s.writeReg r v).params = s.params := rfl
@[simp] theorem State.writeReg_hookCalls (s : State) (r : Reg) (v : Word) : (s.writeReg r v).hookCalls = s.hookCalls := rfl

/-! ### flipToggle -/

@[simp] theorem State.flipToggle_regs (s : State) (p : Override) : (s.flipToggle p).regs = s.regs := by
  cases p <;> rfl
@[simp] theorem State.flipToggle_ip (s : State) (p : Override) : (s.flipToggle p).ip = s.ip := by
  cases p <;> rfl
@[simp] theorem State.flipToggle_flags (s : State) (p : Override) : (s.flipToggle p).flags = s.flags := by
  cases p <;> rfl
@[simp] theorem State.flipToggle_running (s : State) (p : Override) : (s.flipToggle p).running = s.running := by
  cases p <;> rfl
@[simp] theorem State.flipToggle_halted (s : State) (p : Override) : (s.flipToggle p).halted = s.halted := by
  cases p <;> rfl
@[simp] theorem State.flipToggle_hooks (s : State) (p : Override) : (s.flipToggle p).hooks = s.hooks := by
  cases p <;> rfl
@[simp] theorem State.flipToggle_mem (s : State) (p : Override) : (s.flipToggle p).mem = s.mem := by
  cases p <;> rfl
@[simp] theorem State.flipToggle_params (s : State) (p : Override) : (s.flipToggle p).params = s.params := by
  cases p <;> rfl
@[simp] theorem State.flipToggle_hookCalls (s : State) (p : Override) : (s.flipToggle p).hookCalls = s.hookCalls := by
  cases p <;> rfl

/-! ### flipToggles -/

@[simp] theorem State.flipToggles_nil (s : State) : s.flipToggles [] = s := rfl

@[simp] theorem State.flipToggles_cons (s : State) (p : Override) (ps : List Override) :
    s.flipToggles (p :: ps) = (s.flipToggle p).flipToggles ps := rfl

@[simp] theorem State.flipToggles_regs (s : State) (ps : List Override) :
    (s.flipToggles ps).regs = s.regs := by
  induction ps generalizing s with
  | nil => rfl
  | cons p ps ih => simp [ih]

@[simp] theorem State.flipToggles_ip (s : State) (ps : List Override) :
    (s.flipToggles ps).ip = s.ip := by
  induction ps generalizing s with
  | nil => rfl
  | cons p ps ih => simp [ih]

@[simp] theorem State.flipToggles_flags (s : State) (ps : List Override) :
    (s.flipToggles ps).flags = s.flags := by
  induction ps generalizing s with
  | nil => rfl
  | cons p ps ih => simp [ih]

@[simp] theorem State.flipToggles_running (s : State) (ps : List Override) :
    (s.flipToggles ps).running = s.running := by
  induction ps generalizing s with
  | nil => rfl
  | cons p ps ih => simp [ih]

@[simp] theorem State.flipToggles_halted (s : State) (ps : List Override) :
    (s.flipToggles ps).halted = s.halted := by
  induction ps generalizing s with
  | nil => rfl
  | cons p ps ih => simp [ih]

@[simp] theorem State.flipToggles_hooks (s : State) (ps : List Override) :
    (s.flipToggles ps).hooks = s.hooks := by
  induction ps generalizing s with
  | nil => rfl
  | cons p ps ih => simp [ih]

@[simp] theorem State.flipToggles_mem (s : State) (ps : List Override) :
    (s.flipToggles ps).mem = s.mem := by
  induction ps generalizing s with
  | nil => rfl
  | cons p ps ih => simp [ih]

@[simp] theorem State.flipToggles_params (s : State) (ps : List Override) :
    (s.flipToggles ps).params = s.params := by
  induction ps generalizing s with
  | nil => rfl
  | cons p ps ih => simp [ih]

@[simp] theorem State.flipToggles_hookCalls (s : State) (ps : List Override) :
    (s.flipToggles ps).hookCalls = s.hookCalls := by
  induction ps generalizing s with
  | nil => rfl
  | cons p ps ih => simp [ih]

theorem State.flipToggle_setIp (s : State) (p : Override) (v : Word) :
    (s.setIp v).flipToggle p = (s.flipToggle p).setIp v := by
  cases p <;> rfl

theorem State.flipToggles_setIp (s : State) (ps : List Override) (v : Word) :
    (s.setIp v).flipToggles ps = (s.flipToggles ps).setIp v := by
  induction ps generalizing s with
  | nil => rfl
  | cons p ps ih => simp [State.flipToggle_setIp, ih]

@[simp] theorem State.setIp_setIp (s : State) (v w : Word) : (s.setIp v).setIp w = s.setIp w := rfl

@[simp] theorem State.setIp_ip_self (s : State) : s.setIp s.ip = s := rfl

/-! ### Registers -/

@[simp] theorem Regs.get_set_same (g : Regs) (r : Reg) (v : Word) : (g.set r v).get r = v := by
  cases r <;> rfl

theorem Regs.get_set_of_ne (g : Regs) (r q : Reg) (v : Word) (h : q ≠ r) :
    (g.set r v).get q = g.get q := by
  cases r <;> cases q <;> first | rfl | exact absurd rfl h

@[simp] theorem Regs.set_set_same (g : Regs) (r : Reg) (v w : Word) :
    (g.set r v).set r w = g.set r w := by
  cases r <;> rfl

@[simp] theorem State.readReg_writeReg_same (s : State) (r : Reg) (v : Word) :
    (s.writeReg r v).readReg r = v := by
  simp [State.readReg]

theorem State.readReg_writeReg_of_ne (s : State) (r q : Reg) (v : Word) (h : q ≠ r) :
    (s.writeReg r v).readReg q = s.readReg q :=
  Regs.get_set_of_ne s.regs r q v h

@[simp] theorem State.readReg_setIp (s : State) (v : Word) (r : Reg) : (s.setIp v).readReg r = s.readReg r := rfl
@[simp] theorem State.readReg_setFlags (s : State) (v : Flags) (r : Reg) : (s.setFlags v).readReg r = s.readReg r := rfl
@[simp] theorem State.readReg_setRunning (s : State) (v : Bool) (r : Reg) : (s.setRunning v).readReg r = s.readReg r := rfl
@[simp] theorem State.readReg_setHalted (s : State) (v : Bool) (r : Reg) : (s.setHalted v).readReg r = s.readReg r := rfl
@[simp] theorem State.readReg_setOpsize (s : State) (v : Toggle) (r : Reg) : (s.setOpsize v).readReg r = s.readReg r := rfl
@[simp] theorem State.readReg_setAddrsize (s : State) (v : Toggle) (r : Reg) : (s.setAddrsize v).readReg r = s.readReg r := rfl
@[simp] theorem State.readReg_setHooks (s : State) (v : Hooks) (r : Reg) : (s.setHooks v).readReg r = s.readReg r := rfl
@[simp] theorem State.readReg_setMem (s : State) (v : Memory) (r : Reg) : (s.setMem v).readReg r = s.readReg r := rfl
@[simp] theorem State.readReg_addCall (s : State) (c : HookCall) (r : Reg) :
    (s.addCall c).readReg r = s.readReg r := rfl
@[simp] theorem State.readReg_flipToggle (s : State) (p : Override) (r : Reg) :
    (s.flipToggle p).readReg r = s.readReg r := by
  simp [State.readReg]
@[simp] theorem State.readReg_flipToggles (s : State) (ps : List Override) (r : Reg) :
    (s.flipToggles ps).readReg r = s.readReg r := by
  simp [State.readReg]

end Sys2Proof.Machine
end

