-- ==== Sys2Proof/Laws/Ops.lean ====
section
/-! SUPPORT. One spec lemma per shared operation: everything it can do. -/

namespace Sys2Proof.Machine

/-! ### Fetch-and-advance -/

/-- What `fetch8` does (R120, R123). -/
theorem fetch8_eq (s : State) :
    fetch8 s = if s.ip.toNat + 1 ≤ s.mem.size
      then .done (s.mem.byteAt s.ip.toNat) (s.setIp (s.ip + 1))
      else .failed (.outOfBounds s.ip.toNat 1) s := by
  unfold fetch8 Memory.read8
  rw [Memory.access_eq]
  by_cases h : s.ip.toNat + 1 ≤ s.mem.size <;> simp [h]

/-- What `fetch16` does (R121, R123). -/
theorem fetch16_eq (s : State) :
    fetch16 s = if s.ip.toNat + 2 ≤ s.mem.size
      then .done (le16 (s.mem.byteAt s.ip.toNat) (s.mem.byteAt (s.ip.toNat + 1))) (s.setIp (s.ip + 2))
      else .failed (.outOfBounds s.ip.toNat 2) s := by
  unfold fetch16 Memory.read16
  rw [Memory.access_eq]
  by_cases h : s.ip.toNat + 2 ≤ s.mem.size <;> simp [h]

/-- What `fetch32` does (R122, R123). -/
theorem fetch32_eq (s : State) :
    fetch32 s = if s.ip.toNat + 4 ≤ s.mem.size
      then .done (le32 (s.mem.byteAt s.ip.toNat) (s.mem.byteAt (s.ip.toNat + 1))
        (s.mem.byteAt (s.ip.toNat + 2)) (s.mem.byteAt (s.ip.toNat + 3))) (s.setIp (s.ip + 4))
      else .failed (.outOfBounds s.ip.toNat 4) s := by
  unfold fetch32 Memory.read32
  rw [Memory.access_eq]
  by_cases h : s.ip.toNat + 4 ≤ s.mem.size <;> simp [h]

/-! ### Stack primitives -/

/-- The slot's address is the stack pointer less 4, modulo `2^32` (R190). -/
theorem toNat_pushSlot (s : State) :
    (pushSlot s).toNat = ((s.readReg .sp).toNat + (2 ^ 32 - 4)) % 2 ^ 32 := by
  have h4 : (4 : Word).toNat = 4 := rfl
  simp only [pushSlot, BitVec.toNat_sub, h4]
  omega

/-- Where a word has room a push succeeds (R267, R271). -/
theorem pushPasses_of_room (s : State) (h : s.roomFor 1) : s.pushPasses := by
  have hlt := (s.readReg .sp).isLt
  obtain ⟨h1, h2⟩ := h
  rw [State.pushPasses, toNat_pushSlot]
  omega

/-- For `N < 2^32` R62's test of the slot and R271's condition say the same. -/
theorem pushPasses_iff_room (s : State) (h : s.mem.size < 2 ^ 32) : s.pushPasses ↔ s.roomFor 1 := by
  have hlt := (s.readReg .sp).isLt
  rw [State.pushPasses, toNat_pushSlot]
  simp only [State.roomFor]
  omega

/-- For `N = 2^32` the test passes for `x[4] = 0` too, whose slot is the last word of Memory. -/
theorem pushPasses_at_top (s : State) (h : s.mem.size = 2 ^ 32) :
    s.pushPasses ↔ 4 ≤ (s.readReg .sp).toNat ∨ (s.readReg .sp).toNat = 0 := by
  have hlt := (s.readReg .sp).isLt
  rw [State.pushPasses, toNat_pushSlot]
  omega

/-- What `push32` does (R190, R62): it stores where a push succeeds, and else leaves the decrement. -/
theorem push32_eq (v : Word) (s : State) :
    push32 v s = if s.pushPasses
      then .done () ((s.writeReg .sp (pushSlot s)).setMem
        (s.mem.putBytes (pushSlot s).toNat (bytes32 v)))
      else .failed (.outOfBounds (pushSlot s).toNat 4)
        (s.writeReg .sp (pushSlot s)) := by
  unfold push32 Memory.write32
  simp only [State.readReg_writeReg_same, State.writeReg_mem, Memory.access_eq]
  by_cases h : s.pushPasses
  · rw [if_pos h, if_pos h]
  · rw [if_neg h, if_neg h]

/-- What `pop32` does (R191). -/
theorem pop32_eq (s : State) :
    pop32 s = if (s.readReg .sp).toNat + 4 ≤ s.mem.size
      then .done (le32 (s.mem.byteAt (s.readReg .sp).toNat) (s.mem.byteAt ((s.readReg .sp).toNat + 1))
        (s.mem.byteAt ((s.readReg .sp).toNat + 2)) (s.mem.byteAt ((s.readReg .sp).toNat + 3)))
        (s.writeReg .sp (s.readReg .sp + 4))
      else .failed (.outOfBounds (s.readReg .sp).toNat 4) s := by
  unfold pop32 Memory.read32
  rw [Memory.access_eq]
  by_cases h : (s.readReg .sp).toNat + 4 ≤ s.mem.size <;> simp [h]

/-! ### Failures and hooks -/

@[simp] theorem callOnHalt_of_none (s : State) (h : s.hooks.onHalt = none) : callOnHalt s = s := by
  simp [callOnHalt, h]

theorem callOnHalt_of_some (s : State) (c : HookId) (h : s.hooks.onHalt = some c) :
    callOnHalt s = s.addCall (.onHalt c) := by
  simp [callOnHalt, h]

/-- Delivery without an error hook (R223). -/
theorem deliver_of_none (f : Failure) (s : State) (h : s.hooks.onError = none) :
    deliver f s = .raised f (s.setRunning false) := by
  simp [deliver, h]

/-- Delivery to an error hook (R223, R227). -/
theorem deliver_of_some (f : Failure) (s : State) (c : HookId) (h : s.hooks.onError = some c) :
    deliver f s = .returned ((s.setRunning false).addCall (.onError c f)) := by
  simp [deliver, h]

/-! ### Meanings: what the shared ones answer -/

/-- PUSH (R192, R193, R222): the next state, or the failure with the decrement left done. -/
theorem pushReg_eq (r : Reg) (s : State) :
    pushReg r s = if s.pushPasses
      then .next ((s.writeReg .sp (pushSlot s)).setMem
        (s.mem.putBytes (pushSlot s).toNat (bytes32 (pushedValue r s))))
      else .fault (.raised (.outOfBounds (pushSlot s).toNat 4)
        (s.writeReg .sp (pushSlot s))) := by
  unfold pushReg
  rw [push32_eq]
  by_cases h : s.pushPasses
  · simp only [if_pos h, Attempt.outcome]
  · simp only [if_neg h, Attempt.outcome, raise]

/-- POP (R194, R195). -/
theorem popReg_eq (r : Reg) (s : State) :
    popReg r s = if (s.readReg .sp).toNat + 4 ≤ s.mem.size
      then .next ((s.writeReg .sp (s.readReg .sp + 4)).writeReg r
        (le32 (s.mem.byteAt (s.readReg .sp).toNat) (s.mem.byteAt ((s.readReg .sp).toNat + 1))
          (s.mem.byteAt ((s.readReg .sp).toNat + 2)) (s.mem.byteAt ((s.readReg .sp).toNat + 3))))
      else .fault (.raised (.outOfBounds (s.readReg .sp).toNat 4) s) := by
  unfold popReg
  rw [pop32_eq]
  by_cases h : (s.readReg .sp).toNat + 4 ≤ s.mem.size <;> simp [h, raise]

/-- CALL (R181). -/
theorem execCall_eq (rel : Word) (s : State) :
    execCall rel s = if s.pushPasses
      then .next (((s.writeReg .sp (pushSlot s)).setMem
        (s.mem.putBytes (pushSlot s).toNat (bytes32 s.ip))).setIp (s.ip + rel))
      else .fault (.raised (.outOfBounds (pushSlot s).toNat 4)
        (s.writeReg .sp (pushSlot s))) := by
  unfold execCall
  rw [push32_eq]
  by_cases h : s.pushPasses
  · simp only [if_pos h]
  · simp only [if_neg h, raise]

/-- RET (R182). -/
theorem execRet_eq (s : State) :
    execRet s = if (s.readReg .sp).toNat + 4 ≤ s.mem.size
      then .next ((s.writeReg .sp (s.readReg .sp + 4)).setIp
        (le32 (s.mem.byteAt (s.readReg .sp).toNat) (s.mem.byteAt ((s.readReg .sp).toNat + 1))
          (s.mem.byteAt ((s.readReg .sp).toNat + 2)) (s.mem.byteAt ((s.readReg .sp).toNat + 3))))
      else .fault (.raised (.outOfBounds (s.readReg .sp).toNat 4) s) := by
  unfold execRet
  rw [pop32_eq]
  by_cases h : (s.readReg .sp).toNat + 4 ≤ s.mem.size <;> simp [h, raise]

/-- MOV into any register is one shared meaning (R161). -/
theorem exec_mov (r : Reg) (imm : Word) (s : State) :
    exec (Instr.mov r imm) s = .next (s.writeReg r imm) := by
  cases r <;> rfl

/-- PUSH of any register is one shared meaning (R192). -/
theorem exec_push (r : Reg) (s : State) : exec (Instr.push r) s = pushReg r s := by
  cases r <;> rfl

/-- POP into any register is one shared meaning (R194). -/
theorem exec_pop (r : Reg) (s : State) : exec (Instr.pop r) s = popReg r s := by
  cases r <;> rfl

/-- A prefix row's meaning is the flip of its toggle (R143). -/
theorem exec_prefix (p : Override) (s : State) : exec p.toInstr s = .next (s.flipToggle p) := by
  cases p <;> rfl

/-- Every instruction is one of nine forms or a prefix (R3, R100): the case split that keeps the
register groups whole. -/
theorem Instr.forms (i : Instr) :
    i = .nop ∨ i = .ret ∨ i = .hlt ∨ (∃ p : Override, i = p.toInstr)
      ∨ (∃ r imm, i = Instr.mov r imm) ∨ (∃ imm, i = .addAcc imm) ∨ (∃ rel, i = .jmp rel)
      ∨ (∃ rel, i = .call rel) ∨ (∃ r, i = Instr.push r) ∨ (∃ r, i = Instr.pop r) := by
  cases i
  case nop => simp
  case ret => simp
  case hlt => simp
  case opsize => exact .inr (.inr (.inr (.inl ⟨.opsize, rfl⟩)))
  case adsize => exact .inr (.inr (.inr (.inl ⟨.adsize, rfl⟩)))
  case addAcc imm => simp
  case jmp rel => simp
  case call rel => simp
  case movAcc imm => exact .inr (.inr (.inr (.inr (.inl ⟨.acc, imm, rfl⟩))))
  case movCnt imm => exact .inr (.inr (.inr (.inr (.inl ⟨.cnt, imm, rfl⟩))))
  case movDat imm => exact .inr (.inr (.inr (.inr (.inl ⟨.dat, imm, rfl⟩))))
  case movBas imm => exact .inr (.inr (.inr (.inr (.inl ⟨.bas, imm, rfl⟩))))
  case movSp imm => exact .inr (.inr (.inr (.inr (.inl ⟨.sp, imm, rfl⟩))))
  case movBp imm => exact .inr (.inr (.inr (.inr (.inl ⟨.bp, imm, rfl⟩))))
  case movSi imm => exact .inr (.inr (.inr (.inr (.inl ⟨.si, imm, rfl⟩))))
  case movDi imm => exact .inr (.inr (.inr (.inr (.inl ⟨.di, imm, rfl⟩))))
  case pushAcc => exact .inr (.inr (.inr (.inr (.inr (.inr (.inr (.inr (.inl ⟨.acc, rfl⟩))))))))
  case pushCnt => exact .inr (.inr (.inr (.inr (.inr (.inr (.inr (.inr (.inl ⟨.cnt, rfl⟩))))))))
  case pushDat => exact .inr (.inr (.inr (.inr (.inr (.inr (.inr (.inr (.inl ⟨.dat, rfl⟩))))))))
  case pushBas => exact .inr (.inr (.inr (.inr (.inr (.inr (.inr (.inr (.inl ⟨.bas, rfl⟩))))))))
  case pushSp => exact .inr (.inr (.inr (.inr (.inr (.inr (.inr (.inr (.inl ⟨.sp, rfl⟩))))))))
  case pushBp => exact .inr (.inr (.inr (.inr (.inr (.inr (.inr (.inr (.inl ⟨.bp, rfl⟩))))))))
  case pushSi => exact .inr (.inr (.inr (.inr (.inr (.inr (.inr (.inr (.inl ⟨.si, rfl⟩))))))))
  case pushDi => exact .inr (.inr (.inr (.inr (.inr (.inr (.inr (.inr (.inl ⟨.di, rfl⟩))))))))
  case popAcc => exact .inr (.inr (.inr (.inr (.inr (.inr (.inr (.inr (.inr ⟨.acc, rfl⟩))))))))
  case popCnt => exact .inr (.inr (.inr (.inr (.inr (.inr (.inr (.inr (.inr ⟨.cnt, rfl⟩))))))))
  case popDat => exact .inr (.inr (.inr (.inr (.inr (.inr (.inr (.inr (.inr ⟨.dat, rfl⟩))))))))
  case popBas => exact .inr (.inr (.inr (.inr (.inr (.inr (.inr (.inr (.inr ⟨.bas, rfl⟩))))))))
  case popSp => exact .inr (.inr (.inr (.inr (.inr (.inr (.inr (.inr (.inr ⟨.sp, rfl⟩))))))))
  case popBp => exact .inr (.inr (.inr (.inr (.inr (.inr (.inr (.inr (.inr ⟨.bp, rfl⟩))))))))
  case popSi => exact .inr (.inr (.inr (.inr (.inr (.inr (.inr (.inr (.inr ⟨.si, rfl⟩))))))))
  case popDi => exact .inr (.inr (.inr (.inr (.inr (.inr (.inr (.inr (.inr ⟨.di, rfl⟩))))))))

/-! ### One step and the loop of `run` -/

/-- A halted core's step (R141). -/
theorem step_of_halted (s : State) (h : s.halted = true) : step s = .next s := by
  simp [step, stepOnce, h]

/-- A live core's step (R140). -/
theorem step_of_live (s : State) (h : s.halted = false) : step s = stepLive s := by
  simp [step, stepOnce, h]

/-- What a step is made of: a halted core's, or a fetch with what follows it. -/
theorem step_cases (s : State) :
    (s.halted = true ∧ step s = .next s)
      ∨ (s.halted = false ∧
        ((∃ i t, fetchInstr s = .ready i t ∧ step s = exec i t)
          ∨ (∃ f left, fetchInstr s = .failed f left ∧ step s = .fault (.raised f left))
          ∨ (fetchInstr s = .noMeaning ∧ step s = .refused .dispatchUnder16BitToggle)
          ∨ (fetchInstr s = .endless ∧ step s = .fault .endlessPrefixes))) := by
  cases h : s.halted
  · refine .inr ⟨rfl, ?_⟩
    rw [step_of_live s h]
    unfold stepLive
    cases hf : fetchInstr s with
    | ready i t => exact .inl ⟨i, t, rfl, rfl⟩
    | failed f left => exact .inr (.inl ⟨f, left, rfl, rfl⟩)
    | noMeaning => exact .inr (.inr (.inl ⟨rfl, rfl⟩))
    | endless => exact .inr (.inr (.inr ⟨rfl, rfl⟩))
  · exact .inl ⟨rfl, step_of_halted s h⟩

end Sys2Proof.Machine
end

