-- ==== Sys2Proof/Laws/Fetch.lean ====
section
/-! SUPPORT. The fetch of a step: what the prefix loop does on bytes in Memory, when it runs out of
fuel, and what the operand fetch answers. -/

namespace Sys2Proof.Machine

/-- Advancing by one and then by `k` is advancing by `k + 1`, modulo `2^32` (R29). -/
theorem word_add_one_add (a : Word) (k : Nat) :
    a + 1 + BitVec.ofNat 32 k = a + BitVec.ofNat 32 (k + 1) := by
  apply BitVec.eq_of_toNat_eq
  have h1 : (1 : Word).toNat = 1 := rfl
  simp only [BitVec.toNat_add, BitVec.toNat_ofNat, h1]
  omega

/-- Advancing by one below the top of the address space. -/
theorem word_toNat_add_one (a : Word) (h : a.toNat + 1 < 2 ^ 32) : (a + 1).toNat = a.toNat + 1 := by
  have h1 : (1 : Word).toNat = 1 := rfl
  simp only [BitVec.toNat_add, h1]
  omega

/-! ### One turn of the prefix loop -/

theorem fetchLoop_of_outside (fuel : Nat) (s : State) (h : ¬ s.ip.toNat + 1 ≤ s.mem.size) :
    fetchLoop (fuel + 1) s = .failed (.outOfBounds s.ip.toNat 1) s := by
  simp only [fetchLoop, fetch8_eq, if_neg h]

theorem fetchLoop_of_prefix (fuel : Nat) (s : State) (p : Override)
    (h : s.ip.toNat + 1 ≤ s.mem.size) (hp : s.params.opcodes.prefixOf (s.mem.byteAt s.ip.toNat) = some p) :
    fetchLoop (fuel + 1) s = fetchLoop fuel ((s.setIp (s.ip + 1)).flipToggle p) := by
  simp only [fetchLoop, fetch8_eq, if_pos h, hp]

theorem fetchLoop_of_opcode (fuel : Nat) (s : State)
    (h : s.ip.toNat + 1 ≤ s.mem.size) (hp : s.params.opcodes.prefixOf (s.mem.byteAt s.ip.toNat) = none) :
    fetchLoop (fuel + 1) s
      = fetchOperand (s.mem.byteAt s.ip.toNat) s.ip (s.setIp (s.ip + 1)) := by
  simp only [fetchLoop, fetch8_eq, if_pos h, hp]

/-! ### Fuel -/

/-- A fetch that ends is the same with more fuel. -/
theorem fetchLoop_succ (fuel : Nat) (s : State) (h : fetchLoop fuel s ≠ .endless) :
    fetchLoop (fuel + 1) s = fetchLoop fuel s := by
  induction fuel generalizing s with
  | zero => exact absurd rfl h
  | succ fuel ih =>
    by_cases hin : s.ip.toNat + 1 ≤ s.mem.size
    · cases hp : s.params.opcodes.prefixOf (s.mem.byteAt s.ip.toNat) with
      | none => rw [fetchLoop_of_opcode _ s hin hp, fetchLoop_of_opcode _ s hin hp]
      | some p =>
        rw [fetchLoop_of_prefix _ s p hin hp] at h ⊢
        rw [fetchLoop_of_prefix _ s p hin hp]
        exact ih _ h
    · rw [fetchLoop_of_outside _ s hin, fetchLoop_of_outside _ s hin]

theorem fetchOperand_ne_endless (b : Byte) (a : Word) (s : State) :
    fetchOperand b a s ≠ .endless := by
  unfold fetchOperand
  split
  · split
    · simp
    · split
      · split <;> simp
      · simp
  · simp

/-- The loop runs out of `fuel` exactly when that many bytes from `ip` up, wrapping modulo `2^32`,
are all prefixes inside Memory. -/
theorem fetchLoop_endless_iff (fuel : Nat) (s : State) :
    fetchLoop fuel s = .endless ↔
      ∀ k, k < fuel → (s.ip + BitVec.ofNat 32 k).toNat + 1 ≤ s.mem.size
        ∧ (s.params.opcodes.prefixOf (s.mem.byteAt (s.ip + BitVec.ofNat 32 k).toNat)).isSome = true := by
  induction fuel generalizing s with
  | zero => simp [fetchLoop]
  | succ fuel ih =>
    by_cases hin : s.ip.toNat + 1 ≤ s.mem.size
    · cases hp : s.params.opcodes.prefixOf (s.mem.byteAt s.ip.toNat) with
      | none =>
        rw [fetchLoop_of_opcode _ s hin hp]
        refine ⟨fun h => absurd h (fetchOperand_ne_endless _ _ _), fun h => ?_⟩
        have h0 := (h 0 (by omega)).2
        simp [hp] at h0
      | some p =>
        rw [fetchLoop_of_prefix _ s p hin hp, ih]
        simp only [State.flipToggle_ip, State.setIp_ip, State.flipToggle_mem, State.setIp_mem,
          State.flipToggle_params, State.setIp_params, word_add_one_add]
        constructor
        · intro h k hk
          cases k with
          | zero => simpa [hp] using hin
          | succ k => exact h k (by omega)
        · intro h k hk
          exact h (k + 1) (by omega)
    · rw [fetchLoop_of_outside _ s hin]
      refine ⟨fun h => by simp at h, fun h => ?_⟩
      have h0 := (h 0 (by omega)).1
      simp only [BitVec.add_zero] at h0
      exact absurd h0 hin

/-! ### Code in Memory -/

theorem State.codeAtIp_append_left (s : State) (xs ys : List Byte) (h : s.codeAtIp (xs ++ ys)) :
    s.codeAtIp xs := by
  intro k hk
  have hlen : k < (xs ++ ys).length := by
    rw [List.length_append]
    omega
  have hget := h k hlen
  rw [List.getElem_append_left hk] at hget
  exact hget

theorem State.codeAtIp_cons (s : State) (b : Byte) (bs : List Byte) (h : s.codeAtIp (b :: bs)) :
    s.ip.toNat + 1 ≤ s.mem.size ∧ s.mem.byteAt s.ip.toNat = b := by
  have h0 := h 0 (by simp)
  simp only [Nat.add_zero, List.getElem_cons_zero] at h0
  exact ⟨h0.1, h0.2.2⟩

/-- The code after its first byte, seen from the state past that byte. -/
theorem State.codeAtIp_tail (s : State) (b : Byte) (bs : List Byte) (t : State)
    (h : s.codeAtIp (b :: bs)) (hip : t.ip = s.ip + 1) (hmem : t.mem = s.mem) : t.codeAtIp bs := by
  intro k hk
  have h1 := h (k + 1) (by simpa using hk)
  have hlt := h1.2.1
  have hto : t.ip.toNat = s.ip.toNat + 1 := by
    rw [hip, word_toNat_add_one s.ip (by omega)]
  have hadd : s.ip.toNat + 1 + k = s.ip.toNat + (k + 1) := by omega
  rw [hmem, hto, hadd]
  simpa using h1

theorem State.past_zero (s : State) : s.past 0 [] = s := by
  simp [State.past]

theorem State.past_ip (s : State) (n : Nat) (ps : List Override) :
    (s.past n ps).ip = s.ip + BitVec.ofNat 32 n := by
  simp [State.past]

theorem State.past_mem (s : State) (n : Nat) (ps : List Override) : (s.past n ps).mem = s.mem := by
  simp [State.past]

/-- Past a prefix byte and then further on. -/
theorem State.past_cons (s : State) (n : Nat) (p : Override) (ps : List Override) :
    ((s.setIp (s.ip + 1)).flipToggle p).past n ps = s.past (n + 1) (p :: ps) := by
  simp only [State.past, State.setIp_ip, word_add_one_add,
    State.flipToggle_setIp, State.setIp_setIp, State.flipToggles_cons]

@[simp] theorem State.past_params (s : State) (n : Nat) (ps : List Override) :
    (s.past n ps).params = s.params := by
  simp [State.past]

/-- The prefix loop over prefixes that stand in Memory: it goes on past them. -/
theorem fetchLoop_prefixes (fuel : Nat) (s : State) (ps : List Override)
    (hl : s.params.opcodes.legal) (h : s.codeAtIp (prefixBytes s.params.opcodes ps)) :
    fetchLoop (fuel + ps.length) s = fetchLoop fuel (s.past ps.length ps) := by
  induction ps generalizing s with
  | nil => rw [List.length_nil, Nat.add_zero, State.past_zero]
  | cons p ps ih =>
    obtain ⟨hin, hb⟩ := s.codeAtIp_cons _ _ h
    have hp : s.params.opcodes.prefixOf (s.mem.byteAt s.ip.toNat) = some p := by
      rw [hb, prefixOf_byte _ p hl]
    have hlen : fuel + (p :: ps).length = fuel + ps.length + 1 := by simp; omega
    have hpar : ((s.setIp (s.ip + 1)).flipToggle p).params = s.params := by simp
    rw [hlen, fetchLoop_of_prefix _ s p hin hp, ih _ (by rw [hpar]; exact hl), State.past_cons,
      List.length_cons]
    rw [hpar]
    exact s.codeAtIp_tail _ _ _ h (by simp) (by simp)

/-! ### Dispatch and the operand -/

@[simp] theorem mayDispatch_setIp (s : State) (v : Word) : mayDispatch (s.setIp v) = mayDispatch s :=
  rfl

theorem mayDispatch_past (s : State) (n : Nat) (ps : List Override) :
    mayDispatch (s.past n ps) = mayDispatch (s.flipToggles ps) := by
  rw [State.past, State.flipToggles_setIp, mayDispatch_setIp]

/-- Under the spec's default policy every dispatch has a meaning (R149). -/
theorem mayDispatch_of_ignore (s : State) (h : s.params.opsize16Policy = .ignore) :
    mayDispatch s = true := by
  simp [mayDispatch, h]

theorem fetchOperand_of_refused (b : Byte) (a : Word) (s : State) (h : mayDispatch s = false) :
    fetchOperand b a s = .noMeaning := by
  simp [fetchOperand, h]

/-- An opcode without an operand. -/
theorem fetchOperand_of_plain (b : Byte) (a : Word) (s : State) (k : Opcode)
    (h : mayDispatch s = true) (hr : s.params.opcodes.rowOf b = some k) (hk : k.hasImm32 = false) :
    fetchOperand b a s = .ready (k.instr 0) s := by
  simp [fetchOperand, h, hr, hk]

/-- An unassigned byte (R203). -/
theorem fetchOperand_of_unassigned (b : Byte) (a : Word) (s : State) (h : mayDispatch s = true)
    (hb : unassigned s.params.opcodes b = true) :
    fetchOperand b a s = .failed (.unsupportedOpcode b a) s := by
  simp [fetchOperand, h, (rowOf_eq_none _ b).2 hb]

/-- An opcode whose operand lies in Memory. -/
theorem fetchOperand_of_operand (b : Byte) (a : Word) (s : State) (k : Opcode)
    (h : mayDispatch s = true) (hr : s.params.opcodes.rowOf b = some k) (hk : k.hasImm32 = true)
    (hin : s.ip.toNat + 4 ≤ s.mem.size) :
    fetchOperand b a s = .ready (k.instr (le32 (s.mem.byteAt s.ip.toNat)
      (s.mem.byteAt (s.ip.toNat + 1)) (s.mem.byteAt (s.ip.toNat + 2))
      (s.mem.byteAt (s.ip.toNat + 3)))) (s.setIp (s.ip + 4)) := by
  simp only [fetchOperand, h, hr, hk, if_true, fetch32_eq, if_pos hin]

/-- An opcode whose operand does not lie whole in Memory (R123). -/
theorem fetchOperand_of_outside (b : Byte) (a : Word) (s : State) (k : Opcode)
    (h : mayDispatch s = true) (hr : s.params.opcodes.rowOf b = some k) (hk : k.hasImm32 = true)
    (hin : ¬ s.ip.toNat + 4 ≤ s.mem.size) :
    fetchOperand b a s = .failed (.outOfBounds s.ip.toNat 4) s := by
  simp only [fetchOperand, h, hr, hk, if_true, fetch32_eq, if_neg hin]

/-- Everything the operand fetch can answer, and when. -/
theorem fetchOperand_cases (b : Byte) (a : Word) (s : State) :
    (mayDispatch s = false ∧ fetchOperand b a s = .noMeaning)
      ∨ (∃ i, fetchOperand b a s = .ready i s)
      ∨ (∃ i, fetchOperand b a s = .ready i (s.setIp (s.ip + 4)))
      ∨ (unassigned s.params.opcodes b = true ∧ fetchOperand b a s = .failed (.unsupportedOpcode b a) s)
      ∨ (fetchOperand b a s = .failed (.outOfBounds s.ip.toNat 4) s) := by
  cases h : mayDispatch s with
  | false => exact .inl ⟨rfl, fetchOperand_of_refused b a s h⟩
  | true =>
    cases hr : s.params.opcodes.rowOf b with
    | none =>
      have hb := (rowOf_eq_none _ b).1 hr
      exact .inr (.inr (.inr (.inl ⟨hb, fetchOperand_of_unassigned b a s h hb⟩)))
    | some k =>
      cases hk : k.hasImm32 with
      | false => exact .inr (.inl ⟨_, fetchOperand_of_plain b a s k h hr hk⟩)
      | true =>
        by_cases hin : s.ip.toNat + 4 ≤ s.mem.size
        · exact .inr (.inr (.inl ⟨_, fetchOperand_of_operand b a s k h hr hk hin⟩))
        · exact .inr (.inr (.inr (.inr (fetchOperand_of_outside b a s k h hr hk hin))))

/-- Everything the fetch of a step can answer: only `ip` and the toggles have moved. -/
theorem fetchLoop_cases (fuel : Nat) (s : State) :
    ∃ ps : List Override, ∃ v : Word,
      (∃ i, fetchLoop fuel s = .ready i ((s.setIp v).flipToggles ps))
        ∨ (∃ f, fetchLoop fuel s = .failed f ((s.setIp v).flipToggles ps)
          ∧ ((∃ a : Word, f = .outOfBounds a.toNat 1 ∨ f = .outOfBounds a.toNat 4)
            ∨ ∃ (b : Byte) (a : Word), unassigned s.params.opcodes b = true ∧ f = .unsupportedOpcode b a))
        ∨ (fetchLoop fuel s = .noMeaning ∧ s.params.opsize16Policy ≠ .ignore)
        ∨ fetchLoop fuel s = .endless := by
  induction fuel generalizing s with
  | zero => exact ⟨[], s.ip, .inr (.inr (.inr rfl))⟩
  | succ fuel ih =>
    by_cases hin : s.ip.toNat + 1 ≤ s.mem.size
    · cases hp : s.params.opcodes.prefixOf (s.mem.byteAt s.ip.toNat) with
      | some p =>
        rw [fetchLoop_of_prefix fuel s p hin hp]
        obtain ⟨ps, v, h⟩ := ih ((s.setIp (s.ip + 1)).flipToggle p)
        rw [← State.flipToggle_setIp, State.setIp_setIp, ← State.flipToggles_cons] at h
        simp only [State.flipToggle_params, State.setIp_params] at h
        exact ⟨p :: ps, v, h⟩
      | none =>
        rw [fetchLoop_of_opcode fuel s hin hp]
        rcases fetchOperand_cases (s.mem.byteAt s.ip.toNat) s.ip (s.setIp (s.ip + 1))
          with ⟨hd, h⟩ | ⟨i, h⟩ | ⟨i, h⟩ | ⟨hb, h⟩ | h
        · refine ⟨[], s.ip, .inr (.inr (.inl ⟨h, fun hpol => ?_⟩))⟩
          rw [mayDispatch_of_ignore (s.setIp (s.ip + 1)) hpol] at hd
          cases hd
        · exact ⟨[], s.ip + 1, .inl ⟨i, h⟩⟩
        · exact ⟨[], s.ip + 1 + 4, .inl ⟨i, h⟩⟩
        · exact ⟨[], s.ip + 1, .inr (.inl ⟨_, h, .inr ⟨_, _, hb, rfl⟩⟩)⟩
        · exact ⟨[], s.ip + 1, .inr (.inl ⟨_, h, .inl ⟨s.ip + 1, .inr rfl⟩⟩)⟩
    · refine ⟨[], s.ip, .inr (.inl ⟨_, fetchLoop_of_outside fuel s hin, .inl ⟨s.ip, .inl rfl⟩⟩)⟩

end Sys2Proof.Machine
end

