-- ==== Sys2Proof/Laws/Exec.lean ====
section
/-! SUPPORT. What `exec` and a fetch of a step answer, over all instructions at once: frames of the
shared operations, the ways an execution can end, and the fetch of code that stands in Memory. -/

namespace Sys2Proof.Machine

/-! ### Frames of the shared operations -/

/-- A register write leaves the other registers (R20). -/
theorem writeReg_frame (s : State) (r : Reg) (v : Word) : sameRegsBut [r] s (s.writeReg r v) :=
  fun q hq => s.readReg_writeReg_of_ne r q v (by simpa using hq)

/-- A four-byte store leaves every byte outside it. -/
theorem putBytes32_outside (m : Memory) (a : Nat) (v : Word) (x : Nat)
    (h : ¬ (a ≤ x ∧ x < a + 4)) : (m.putBytes a (bytes32 v)).byteAt x = m.byteAt x :=
  m.byteAt_putBytes_outside a x _ (by simpa using h)

/-- A word taken as an integer and narrowed again is itself. -/
theorem ofInt_toNat (w : Word) : BitVec.ofInt 32 (w.toNat : Int) = w := by
  rw [BitVec.ofInt_natCast, BitVec.ofNat_toNat, BitVec.setWidth_eq]

/-- Calling the halt hook touches nothing but the record of calls. -/
theorem callOnHalt_frame (s : State) :
    (callOnHalt s).mem = s.mem ∧ (callOnHalt s).regs = s.regs ∧ (callOnHalt s).flags = s.flags
      ∧ (callOnHalt s).ip = s.ip ∧ (callOnHalt s).halted = s.halted
      ∧ (callOnHalt s).params = s.params ∧ (callOnHalt s).hooks = s.hooks
      ∧ (callOnHalt s).running = s.running := by
  unfold callOnHalt
  split <;> simp

/-! ### How an execution can end -/

/-- Every instruction has a meaning. -/
theorem exec_not_refused (i : Instr) (s : State) (r : Refusal) : exec i s ≠ .refused r := by
  rcases Instr.forms i with rfl | rfl | rfl | ⟨p, rfl⟩ | ⟨q, v, rfl⟩ | ⟨v, rfl⟩ | ⟨v, rfl⟩ | ⟨v, rfl⟩
    | ⟨q, rfl⟩ | ⟨q, rfl⟩
  · simp [exec, execNop]
  · simp only [exec, execRet_eq]
    split <;> simp
  · simp [exec, execHlt]
  · simp [exec_prefix]
  · simp [exec_mov]
  · simp [exec, execAddAcc]
  · simp [exec, execJmp]
  · simp only [exec, execCall_eq]
    split <;> simp
  · simp only [exec_push, pushReg_eq]
    split <;> simp
  · simp only [exec_pop, popReg_eq]
    split <;> simp

/-- An execution that fails fails on a stack access, with at most the stack pointer changed. -/
theorem exec_fault (i : Instr) (s : State) (f : Fault) (h : exec i s = .fault f) :
    ∃ a sp : Word, f = .raised (.outOfBounds a.toNat 4) (s.writeReg .sp sp) := by
  rcases Instr.forms i with rfl | rfl | rfl | ⟨p, rfl⟩ | ⟨q, v, rfl⟩ | ⟨v, rfl⟩ | ⟨v, rfl⟩ | ⟨v, rfl⟩
    | ⟨q, rfl⟩ | ⟨q, rfl⟩
  · simp [exec, execNop] at h
  · simp only [exec, execRet_eq] at h
    split at h <;> cases h
    exact ⟨s.readReg .sp, s.readReg .sp, rfl⟩
  · simp [exec, execHlt] at h
  · simp [exec_prefix] at h
  · simp [exec_mov] at h
  · simp [exec, execAddAcc] at h
  · simp [exec, execJmp] at h
  · simp only [exec, execCall_eq] at h
    split at h <;> cases h
    exact ⟨pushSlot s, pushSlot s, rfl⟩
  · simp only [exec_push, pushReg_eq] at h
    split at h <;> cases h
    exact ⟨pushSlot s, pushSlot s, rfl⟩
  · simp only [exec_pop, popReg_eq] at h
    split at h <;> cases h
    exact ⟨s.readReg .sp, s.readReg .sp, rfl⟩

/-- What an execution does to Memory: nothing, or one four-byte store inside `[0, N)` (R74). -/
theorem exec_mem (i : Instr) (s t : State) (h : exec i s = .next t) :
    t.mem = s.mem ∨ ∃ v : Word, (pushSlot s).toNat + 4 ≤ s.mem.size
      ∧ t.mem = s.mem.putBytes (pushSlot s).toNat (bytes32 v) := by
  rcases Instr.forms i with rfl | rfl | rfl | ⟨p, rfl⟩ | ⟨q, v, rfl⟩ | ⟨v, rfl⟩ | ⟨v, rfl⟩ | ⟨v, rfl⟩
    | ⟨q, rfl⟩ | ⟨q, rfl⟩
  · cases h
    exact .inl rfl
  · simp only [exec, execRet_eq] at h
    split at h <;> cases h
    exact .inl rfl
  · simp only [exec, execHlt] at h
    cases h
    exact .inl (callOnHalt_frame _).1
  · rw [exec_prefix] at h
    cases h
    exact .inl (by simp)
  · rw [exec_mov] at h
    cases h
    exact .inl rfl
  · cases h
    exact .inl rfl
  · cases h
    exact .inl rfl
  · simp only [exec, execCall_eq] at h
    split at h <;> cases h
    exact .inr ⟨_, ‹s.pushPasses›, rfl⟩
  · rw [exec_push, pushReg_eq] at h
    split at h <;> cases h
    exact .inr ⟨_, ‹s.pushPasses›, rfl⟩
  · rw [exec_pop, popReg_eq] at h
    split at h <;> cases h
    exact .inl rfl

/-- What an execution does to `halted`, the record of hook calls, the hooks and the parameters. -/
theorem exec_control (i : Instr) (s t : State) (h : exec i s = .next t) :
    t.params = s.params ∧ t.hooks = s.hooks ∧ t.running = s.running
      ∧ ((t.halted = s.halted ∧ t.hookCalls = s.hookCalls)
        ∨ (t.halted = true ∧ t.hookCalls = s.hookCalls ++ (s.hooks.onHalt.map HookCall.onHalt).toList)) := by
  rcases Instr.forms i with rfl | rfl | rfl | ⟨p, rfl⟩ | ⟨q, v, rfl⟩ | ⟨v, rfl⟩ | ⟨v, rfl⟩ | ⟨v, rfl⟩
    | ⟨q, rfl⟩ | ⟨q, rfl⟩
  · cases h
    simp
  · simp only [exec, execRet_eq] at h
    split at h <;> cases h
    simp
  · simp only [exec, execHlt] at h
    cases h
    cases hh : s.hooks.onHalt <;> simp [callOnHalt, hh]
  · rw [exec_prefix] at h
    cases h
    simp
  · rw [exec_mov] at h
    cases h
    simp
  · cases h
    simp
  · cases h
    simp
  · simp only [exec, execCall_eq] at h
    split at h <;> cases h
    simp
  · rw [exec_push, pushReg_eq] at h
    split at h <;> cases h
    simp
  · rw [exec_pop, popReg_eq] at h
    split at h <;> cases h
    simp

/-! ### The fetch of code in Memory -/

theorem bytesFrom_4 (m : Memory) (a n : Nat) (i0 i1 i2 i3 : Byte)
    (h : m.bytesFrom a n = [i0, i1, i2, i3]) :
    n = 4 ∧ i0 = m.byteAt a ∧ i1 = m.byteAt (a + 1) ∧ i2 = m.byteAt (a + 2)
      ∧ i3 = m.byteAt (a + 3) := by
  have hl := congrArg List.length h
  simp at hl
  subst hl
  simp [Memory.bytesFrom] at h
  simp [h]

/-- The last byte of code in Memory, seen from the state past the prefixes before it. -/
theorem codeAtIp_last (s : State) (ps : List Override) (b : Byte)
    (h : s.codeAtIp (prefixBytes s.params.opcodes ps ++ [b])) :
    (s.past ps.length ps).ip.toNat + 1 ≤ s.mem.size
      ∧ s.mem.byteAt (s.past ps.length ps).ip.toNat = b ∧ ps.length < s.mem.size := by
  obtain ⟨h1, h2, h3⟩ := h ps.length (by simp [prefixBytes])
  have e : (s.ip.toNat + ps.length % 2 ^ 32) % 2 ^ 32 = s.ip.toNat + ps.length := by omega
  rw [State.past_ip, BitVec.toNat_add, BitVec.toNat_ofNat, e]
  refine ⟨by omega, ?_, by omega⟩
  rw [h3]
  simp [prefixBytes]

/-- The fetch of an opcode behind any prefixes (R142, R143). -/
theorem fetchInstr_behind (s : State) (ps : List Override) (b : Byte)
    (hl : s.params.opcodes.legal) (h : s.codeAtIp (prefixBytes s.params.opcodes ps ++ [b]))
    (hp : s.params.opcodes.prefixOf b = none) :
    fetchInstr s
      = fetchOperand b (s.ip + BitVec.ofNat 32 ps.length) (s.past (ps.length + 1) ps) := by
  obtain ⟨h1, h2, h3⟩ := codeAtIp_last s ps b h
  obtain ⟨f, hf⟩ : ∃ f, s.mem.size + 1 = (f + 1) + ps.length := ⟨s.mem.size - ps.length, by omega⟩
  rw [fetchInstr, hf, fetchLoop_prefixes _ s ps hl (s.codeAtIp_append_left _ _ h),
    fetchLoop_of_opcode _ _ (by rw [State.past_mem]; exact h1)
      (by rw [State.past_mem, State.past_params, h2]; exact hp),
    State.past_mem, h2, State.past_ip]
  congr 1
  simp only [State.past, State.flipToggles_setIp, State.setIp_setIp]
  congr 1
  rw [BitVec.add_assoc]
  congr 1
  apply BitVec.eq_of_toNat_eq
  have h1 : (1 : Word).toNat = 1 := rfl
  simp only [BitVec.toNat_add, BitVec.toNat_ofNat, h1]
  omega

/-- The fetch of bytes that decode: the loop and the decoder read the same instruction. -/
theorem fetchLoop_of_decode (fuel n : Nat) (s : State) (c : StepCode) (hf : n ≤ fuel)
    (h1 : s.ip.toNat + n ≤ s.mem.size) (h2 : s.ip.toNat + n ≤ 2 ^ 32)
    (hd : decodeStep s.params.opcodes (s.mem.bytesFrom s.ip.toNat n) = .ok (c, []))
    (hm : mayDispatch (s.flipToggles c.prefixes) = true) :
    fetchLoop fuel s = .ready c.core (s.past n c.prefixes) := by
  induction n generalizing s c fuel with
  | zero => simp [Memory.bytesFrom, decodeStep] at hd
  | succ n ih =>
    obtain ⟨fuel, rfl⟩ : ∃ f, fuel = f + 1 := ⟨fuel - 1, by omega⟩
    have hin : s.ip.toNat + 1 ≤ s.mem.size := by omega
    rcases decodeStep_ok _ _ _ _ _ hd with ⟨p, c', hp, hd', rfl⟩ | ⟨hp, hd', hpre⟩
    · rw [fetchLoop_of_prefix fuel s p hin hp]
      by_cases hn : n = 0
      · subst hn
        simp [Memory.bytesFrom, decodeStep] at hd'
      have hto := word_toNat_add_one s.ip (by omega)
      have e1 : ((s.setIp (s.ip + 1)).flipToggle p).ip.toNat = s.ip.toNat + 1 := by
        rw [State.flipToggle_ip, State.setIp_ip, hto]
      have e2 : ((s.setIp (s.ip + 1)).flipToggle p).mem = s.mem := by simp
      rw [ih fuel ((s.setIp (s.ip + 1)).flipToggle p) c' (by omega) (by rw [e1, e2]; omega)
        (by rw [e1]; omega) (by rw [e1, e2]; simpa using hd')]
      · rw [State.past_cons]
      · have e3 : (((s.setIp (s.ip + 1)).flipToggle p).flipToggles c'.prefixes)
            = (s.setIp (s.ip + 1)).flipToggles (p :: c'.prefixes) := rfl
        rw [e3, State.flipToggles_setIp, mayDispatch_setIp]
        exact hm
    · rw [fetchLoop_of_opcode fuel s hin hp]
      rw [hpre] at hm ⊢
      obtain ⟨k, hk, ⟨hb, i0, i1, i2, i3, hr, hi⟩ | ⟨hb, hr, hi⟩⟩ := decode_ok _ _ _ _ _ hd'
      · obtain ⟨hn, e0, e1, e2, e3⟩ := bytesFrom_4 _ _ _ _ _ _ _ hr
        subst hn
        have hto := word_toNat_add_one s.ip (by omega)
        rw [fetchOperand_of_operand _ _ (s.setIp (s.ip + 1)) k (by simpa using hm) hk hb
          (by rw [State.setIp_ip, State.setIp_mem, hto]; omega),
          State.setIp_ip, State.setIp_mem, hto, ← e0, ← e1, ← e2, ← e3, ← hi]
        simp only [State.past, State.setIp_setIp, State.flipToggles_nil]
        congr 2
        bv_omega
      · have hn : n = 0 := by simpa using congrArg List.length hr
        subst hn
        rw [fetchOperand_of_plain _ _ (s.setIp (s.ip + 1)) k (by simpa using hm) hk hb, ← hi]
        rfl

end Sys2Proof.Machine
end

