-- ==== Sys2Proof/Laws/Flags.lean ====
section
/-! SUPPORT. The bits of the packed flags word (R33). -/

namespace Sys2Proof.Machine

/-- One flag at its place in a word. -/
abbrev flagBit (b : Bool) (k : Nat) : Word := (BitVec.ofBool b).setWidth 32 <<< k

/-- The packed word as an OR of the nine flags at their places (R33). -/
theorem Flags.pack_eq (a b c d e f g h i : Bool) :
    Flags.pack ⟨a, b, c, d, e, f, g, h, i⟩
      = flagBit a 0 ||| flagBit b 2 ||| flagBit c 4 ||| flagBit d 6 ||| flagBit e 7 ||| flagBit f 8
        ||| flagBit g 9 ||| flagBit h 10 ||| flagBit i 11 := by
  cases a <;> cases b <;> cases c <;> cases d <;> cases e <;> cases f <;> cases g <;> cases h
    <;> cases i <;> decide

/-- A flag's bit is the flag at its place, and zero elsewhere. -/
theorem flagBit_getLsbD (b : Bool) (j k : Nat) (hk : k < 32) :
    (flagBit b j).getLsbD k = (decide (k = j) && b) := by
  simp only [BitVec.getLsbD_shiftLeft, BitVec.getLsbD_setWidth, BitVec.getLsbD_ofBool, hk,
    decide_true, Bool.true_and]
  by_cases h1 : k < j
  · have h2 : k ≠ j := by omega
    simp [h1, h2]
  · by_cases h2 : k = j
    · subst h2
      simp
    · have h3 : k - j ≠ 0 := by omega
      simp [h2, h3]

end Sys2Proof.Machine
end

