-- ==== Sys2Proof/Laws/Loader.lean ====
section
/-! SUPPORT. The Loader's copies keep Memory's canonical form and its capacity (R60, R263). -/

namespace Sys2Proof.Machine

theorem copySection_wf (buf : List Byte) (imageBase : Word) (d : Section) (m m' : Memory)
    (hm : m.wf) (h : copySection buf imageBase d m = .ok m') : m'.wf ∧ m'.size = m.size := by
  simp only [copySection] at h
  split at h
  · cases h
  · cases h
    exact ⟨Memory.putBytes_wf _ _ _ hm (by simp; omega), Memory.putBytes_size _ _ _⟩

theorem copySections_wf (buf : List Byte) (imageBase : Word) (k off : Nat) (m m' : Memory)
    (hm : m.wf) (h : copySections buf imageBase k off m = .ok m') : m'.wf ∧ m'.size = m.size := by
  induction k generalizing off m with
  | zero =>
    cases h
    exact ⟨hm, rfl⟩
  | succ k ih =>
    simp only [copySections, bind, Except.bind] at h
    split at h
    · cases h
    split at h
    · cases h
    rename_i hc
    obtain ⟨hw, hs⟩ := copySection_wf _ _ _ _ _ hm hc
    obtain ⟨hw', hs'⟩ := ih _ _ hw h
    exact ⟨hw', hs'.trans hs⟩

end Sys2Proof.Machine
end

