-- ==== Sys2Proof/Laws/PerInstr.lean ====
section
/-! SUPPORT. Statements made per instruction: the family `Encoding`. -/

namespace Sys2Proof.Laws.Encoding

/-- R91, R102: for any open bytes that make an opcode map, an instruction's encoding decodes to it,
whatever follows, and is as long as its opcode byte says: five bytes exactly for the opcodes of formats
I32, RI32 and D32, else one. -/
def Statement (i : Instr) : Prop :=
  ∀ o : Config.Opcodes, o.legal →
    (∀ rest : List Byte, decode o (encode o i ++ rest) = .ok (i, rest))
      ∧ ∃ (b : Byte) (operand : List Byte), encode o i = b :: operand
        ∧ operand.length = if Machine.takesOperand o b then 4 else 0

theorem of_legal (i : Instr) : Statement i := by
  intro o h
  refine ⟨fun rest => decode_encode o i rest h, ?_⟩
  obtain ⟨k, v, rfl⟩ := i.exists_opcode
  have ht := takesOperand_eq o (o.byteOf k) k h (rowOf_byteOf o k h)
  cases hk : k.hasImm32 with
  | true => exact ⟨_, _, encode_instr_operand o k v hk, by rw [ht, hk]; rfl⟩
  | false => exact ⟨_, _, encode_instr_plain o k v hk, by rw [ht, hk]; rfl⟩

theorem addAcc (v : Word) : Statement (.addAcc v) := of_legal _
theorem pushAcc : Statement .pushAcc := of_legal _
theorem pushCnt : Statement .pushCnt := of_legal _
theorem pushDat : Statement .pushDat := of_legal _
theorem pushBas : Statement .pushBas := of_legal _
theorem pushSp : Statement .pushSp := of_legal _
theorem pushBp : Statement .pushBp := of_legal _
theorem pushSi : Statement .pushSi := of_legal _
theorem pushDi : Statement .pushDi := of_legal _
theorem popAcc : Statement .popAcc := of_legal _
theorem popCnt : Statement .popCnt := of_legal _
theorem popDat : Statement .popDat := of_legal _
theorem popBas : Statement .popBas := of_legal _
theorem popSp : Statement .popSp := of_legal _
theorem popBp : Statement .popBp := of_legal _
theorem popSi : Statement .popSi := of_legal _
theorem popDi : Statement .popDi := of_legal _
theorem opsize : Statement .opsize := of_legal _
theorem adsize : Statement .adsize := of_legal _
theorem nop : Statement .nop := of_legal _
theorem movAcc (v : Word) : Statement (.movAcc v) := of_legal _
theorem movCnt (v : Word) : Statement (.movCnt v) := of_legal _
theorem movDat (v : Word) : Statement (.movDat v) := of_legal _
theorem movBas (v : Word) : Statement (.movBas v) := of_legal _
theorem movSp (v : Word) : Statement (.movSp v) := of_legal _
theorem movBp (v : Word) : Statement (.movBp v) := of_legal _
theorem movSi (v : Word) : Statement (.movSi v) := of_legal _
theorem movDi (v : Word) : Statement (.movDi v) := of_legal _
theorem ret : Statement .ret := of_legal _
theorem call (v : Word) : Statement (.call v) := of_legal _
theorem jmp (v : Word) : Statement (.jmp v) := of_legal _
theorem hlt : Statement .hlt := of_legal _

end Sys2Proof.Laws.Encoding
end

