-- ==== Sys2Proof/Laws/Run.lean ====
section
/-! SUPPORT. What a fetch, a delivery, a step and the loop of `run` leave alone. -/

namespace Sys2Proof.Machine

/-- A fetch that gives an instruction has moved only `ip` and the toggles. -/
theorem fetchInstr_ready (s t : State) (i : Instr) (h : fetchInstr s = .ready i t) :
    ∃ (ps : List Override) (v : Word), t = (s.setIp v).flipToggles ps := by
  obtain ⟨ps, v, ⟨i', h'⟩ | ⟨f, h', _⟩ | ⟨h', _⟩ | h'⟩ := fetchLoop_cases (s.mem.size + 1) s <;>
    rw [fetchInstr, h'] at h <;> cases h
  exact ⟨ps, v, rfl⟩

/-- A fetch that fails has moved only `ip` and the toggles. -/
theorem fetchInstr_failed (s t : State) (f : Failure) (h : fetchInstr s = .failed f t) :
    ∃ (ps : List Override) (v : Word), t = (s.setIp v).flipToggles ps := by
  obtain ⟨ps, v, ⟨i', h'⟩ | ⟨f', h', _⟩ | ⟨h', _⟩ | h'⟩ := fetchLoop_cases (s.mem.size + 1) s <;>
    rw [fetchInstr, h'] at h <;> cases h
  exact ⟨ps, v, rfl⟩

/-- Placing an instruction at `ip` keeps the invariant. -/
theorem placeAtIp_inv (s : State) (bytes : List Byte) (h : s.Inv) : (placeAtIp s bytes).Inv := by
  by_cases hip : s.ip.toNat ≤ s.mem.size
  · refine ⟨Memory.putBytes_wf _ _ _ h.1 ?_, h.2⟩
    rw [List.length_take]
    omega
  · have h0 : s.mem.size - s.ip.toNat = 0 := by omega
    have e : (placeAtIp s bytes).mem = s.mem := by simp [placeAtIp, h0]
    exact ⟨by rw [e]; exact h.1, h.2⟩

/-- What a delivery leaves alone (R223, R227). -/
theorem deliver_state (f : Failure) (s t : State) (h : (deliver f s).state? = some t) :
    t.mem = s.mem ∧ t.haltCalls = s.haltCalls ∧ t.halted = s.halted := by
  cases hc : s.hooks.onError with
  | none =>
    rw [deliver_of_none f s hc] at h
    cases h
    exact ⟨rfl, rfl, rfl⟩
  | some c =>
    rw [deliver_of_some f s c hc] at h
    cases h
    refine ⟨rfl, ?_, rfl⟩
    simp [State.haltCalls]

/-- The loop of `run` on a halted core ends at once. -/
theorem runLoop_of_halted (n k : Nat) (s : State) (h : s.halted = true) :
    runLoop n k s = .returned s := by
  cases n <;> simp [runLoop, runExit, h]

/-- A step does not write `running` (R146). -/
theorem step_running (s t : State) (h : step s = .next t) : t.running = s.running := by
  rcases step_cases s with ⟨_, h'⟩ | ⟨_, ⟨i, u, hf, h'⟩ | ⟨f, u, _, h'⟩ | ⟨_, h'⟩ | ⟨_, h'⟩⟩ <;>
    rw [h'] at h
  · cases h
    rfl
  · obtain ⟨ps, v, rfl⟩ := fetchInstr_ready s u i hf
    simpa using (exec_control _ _ _ h).2.2.1
  · cases h
  · cases h
  · cases h

end Sys2Proof.Machine
end

