-- ==== Sys2Proof/Tests/Slice0.lean ====
section
/-! SUPPORT. The model's own tests. Expected values come from the spec's vectors (spec/95_test_vectors.md,
named by their numbers: A1, D1, J2, K1, H1 ...) or, where a docstring says "by rule", by hand from
the rule it names. The last part shows, for every statement with hypotheses, that they can be met. -/

namespace Sys2Proof.Tests

set_option Elab.async false

open Sys2Proof Sys2Proof.Machine

/-! ### Helpers -/

/-- A fresh core of capacity `n` with bytes at an address. -/
def coreAt (n a : Nat) (bytes : List Byte) : State :=
  let s := State.create Config.defaultParams n
  s.setMem (s.mem.putBytes a bytes)

/-- A fresh core of capacity `n` with code at 0. -/
def core (n : Nat) (bytes : List Byte) : State := coreAt n 0 bytes

def nextOf : Host.Outcome State Fault Refusal → Option State
  | .next s => some s
  | .fault _ => none
  | .refused _ => none

def faultOf : Host.Outcome State Fault Refusal → Option Fault
  | .next _ => none
  | .fault f => some f
  | .refused _ => none

def okOf {α : Type} : Except Failure α → Option α
  | .ok v => some v
  | .error _ => none

def errOf {ε α : Type} : Except ε α → Option ε
  | .ok _ => none
  | .error e => some e

/-- Decoding under the default open bytes. -/
def row (bytes : List Byte) : Except DecodeError (Instr × List Byte) :=
  decode Config.defaultOpcodes bytes

/-- Decoding a step under the default open bytes. -/
def stepRow (bytes : List Byte) : Except DecodeError (StepCode × List Byte) :=
  decodeStep Config.defaultOpcodes bytes

/-- The next state of one step, or none. -/
def stepTo (s : State) : Option State := nextOf (step s)

/-- The failure of one step and the state it leaves, or none. -/
def stepFails (s : State) : Option (Failure × State) :=
  match step s with
  | .fault (.raised f left) => some (f, left)
  | .fault .endlessPrefixes => none
  | .next _ => none
  | .refused _ => none

/-! ### WellFormed: the ill-formed terms are refused -/

theorem test_wf_refuses_opsize_as_core : StepCode.wf ⟨[], .opsize⟩ = false := by decide
theorem test_wf_refuses_adsize_as_core : StepCode.wf ⟨[.opsize], .adsize⟩ = false := by decide
theorem test_wf_accepts_prefixed : StepCode.wf ⟨[.opsize, .adsize, .opsize], .movAcc 7⟩ = true := by
  decide

/-! ### Decoding: bytes written out from R92 to R95 and R100 -/

/-- Format O, format RO with base `01010` (PUSH) and `01011` (POP): register in bits 2:0. -/
theorem test_decode_push :
    decodeTableWord 8 0b01010000 = some .pushAcc ∧ decodeTableWord 8 0b01010001 = some .pushCnt
      ∧ decodeTableWord 8 0b01010010 = some .pushDat ∧ decodeTableWord 8 0b01010011 = some .pushBas
      ∧ decodeTableWord 8 0b01010100 = some .pushSp ∧ decodeTableWord 8 0b01010101 = some .pushBp
      ∧ decodeTableWord 8 0b01010110 = some .pushSi ∧ decodeTableWord 8 0b01010111 = some .pushDi := by
  decide

theorem test_decode_pop :
    decodeTableWord 8 0b01011000 = some .popAcc ∧ decodeTableWord 8 0b01011001 = some .popCnt
      ∧ decodeTableWord 8 0b01011010 = some .popDat ∧ decodeTableWord 8 0b01011011 = some .popBas
      ∧ decodeTableWord 8 0b01011100 = some .popSp ∧ decodeTableWord 8 0b01011101 = some .popBp
      ∧ decodeTableWord 8 0b01011110 = some .popSi ∧ decodeTableWord 8 0b01011111 = some .popDi := by
  decide

/-- Format RI32, base `10111`: the immediate's bytes follow, least significant first (A2 to A9). -/
theorem test_decode_mov :
    row [0b10111000, 0x78, 0x56, 0x34, 0x12] = .ok (.movAcc 0x12345678, [])
      ∧ row [0b10111001, 0x01, 0x00, 0x00, 0x00] = .ok (.movCnt 1, [])
      ∧ row [0b10111010, 0xFF, 0xFF, 0xFF, 0xFF] = .ok (.movDat 0xFFFFFFFF, [])
      ∧ row [0b10111011, 0x00, 0x00, 0x00, 0x80] = .ok (.movBas 0x80000000, [])
      ∧ row [0b10111100, 0x00, 0x01, 0x00, 0x00] = .ok (.movSp 0x100, [])
      ∧ row [0b10111101, 0xEF, 0xBE, 0xAD, 0xDE] = .ok (.movBp 0xDEADBEEF, [])
      ∧ row [0b10111110, 0x0D, 0xF0, 0xAD, 0x0B] = .ok (.movSi 0x0BADF00D, [])
      ∧ row [0b10111111, 0x44, 0x33, 0x22, 0x11] = .ok (.movDi 0x11223344, []) := by
  refine ⟨?_, ?_, ?_, ?_, ?_, ?_, ?_, ?_⟩ <;> rfl

/-- Formats I32 and D32 (D7, J6, J2). -/
theorem test_decode_operands :
    row [0b00000101, 0x21, 0x43, 0x65, 0x87] = .ok (.addAcc 0x87654321, [])
      ∧ row [0b11101000, 0x06, 0x00, 0x00, 0x00, 0xF4] = .ok (.call 6, [0xF4])
      ∧ row [0b11101001, 0xFB, 0xFF, 0xFF, 0xFF] = .ok (.jmp 0xFFFFFFFB, []) := by
  refine ⟨?_, ?_, ?_⟩ <;> rfl

/-- Format O, and the two prefix bytes. -/
theorem test_decode_plain :
    decodeTableWord 8 0b10010000 = some .nop ∧ decodeTableWord 8 0b11000011 = some .ret
      ∧ decodeTableWord 8 0b11110100 = some .hlt ∧ decodeTableWord 8 0b01100110 = some .opsize
      ∧ decodeTableWord 8 0b01100111 = some .adsize := by
  decide

/-- H10's neighbours of assigned bytes are refused by name. -/
theorem test_decode_unassigned :
    [0x00, 0x04, 0x06, 0x0F, 0x4F, 0x60, 0x8B, 0xC2, 0xCC, 0xCD, 0xEB, 0xFF].map
        (fun b => errOf (row [b, 0, 0, 0, 0]))
      = [0x00, 0x04, 0x06, 0x0F, 0x4F, 0x60, 0x8B, 0xC2, 0xCC, 0xCD, 0xEB, 0xFF].map
        (fun b => some (DecodeError.unassigned b)) := by
  decide

theorem test_decode_truncated : errOf (row [0x05, 1, 2, 3]) = some (.truncated 0x05) := by decide

/-- The default open bytes make an opcode map. -/
theorem default_legal : Config.defaultOpcodes.legal := by decide +kernel

/-- Open bytes of another core (R7): PUSH at `40`, POP at `48`, HLT at `F0`, operand-size at `26`. -/
def others : Config.Opcodes :=
  { Config.defaultOpcodes with pushBase := 0x40, popBase := 0x48, hlt := 0xF0, pfxOpsize := 0x26 }

theorem others_legal : others.legal := by decide +kernel

/-- By R93, R100 and R101 with those bytes: `44` is PUSH SP, `49` POP CNT, `26` a prefix, and `50`,
`F4` and `66` are unassigned. -/
theorem test_decode_open_bytes :
    decode others [0x44] = .ok (.pushSp, []) ∧ decode others [0x49, 1] = .ok (.popCnt, [1])
      ∧ decodeStep others [0x26, 0xF0] = .ok (⟨[.opsize], .hlt⟩, [])
      ∧ [0x50, 0xF4, 0x66].map (fun b => errOf (decode others [b]))
        = [some (.unassigned 0x50), some (.unassigned 0xF4), some (.unassigned 0x66)] := by
  refine ⟨rfl, rfl, rfl, ?_⟩
  decide +kernel

/-- The bytes are legal only if no two rows share one, and a group base leaves bits 2:0 free. -/
theorem test_legal_refuses :
    ¬ ({ others with hlt := 0x40 } : Config.Opcodes).legal
      ∧ ¬ ({ others with pushBase := 0x41 } : Config.Opcodes).legal := by
  decide +kernel

/-- P5, second step: the prefixes are skipped, the next byte is the opcode. -/
theorem test_decode_step :
    stepRow [0x67, 0x66, 0xB8, 0xBE, 0xBA, 0xFE, 0xCA]
      = .ok (⟨[.adsize, .opsize], .movAcc 0xCAFEBABE⟩, []) := by
  rfl

/-- P2's CALL at 05 to 0x10, and P3's JMP to itself (R110). -/
theorem test_encode_targets :
    encode Config.defaultOpcodes (.call (relTo 5 0x10 0)) = [0xE8, 0x06, 0x00, 0x00, 0x00]
      ∧ encode Config.defaultOpcodes (.jmp (relTo 0 0 0)) = [0xE9, 0xFB, 0xFF, 0xFF, 0xFF] := by
  decide

/-- P2's listing of these two. -/
theorem test_asm : Instr.asm 5 (.movSp 0x80) = "MOV SP, 0x80" ∧ Instr.asm 0xA (.call 6) = "CALL 0x10" := by
  decide

/-! ### NOP and MOV -/

/-- A1. -/
theorem test_nop : stepTo (core 0x20 [0x90]) = some ((core 0x20 [0x90]).setIp 1) := by decide +kernel

/-- The step of A2 to A9: the register and `ip` change, and nothing else. -/
def movStep (r : Reg) (v : Word) (code : List Byte) : Bool :=
  stepTo (core 0x20 code) == some (((core 0x20 code).setIp 5).writeReg r v)

theorem test_mov_acc : movStep .acc 0x12345678 [0xB8, 0x78, 0x56, 0x34, 0x12] = true := by
  decide +kernel
theorem test_mov_cnt : movStep .cnt 1 [0xB9, 0x01, 0x00, 0x00, 0x00] = true := by decide +kernel
theorem test_mov_dat : movStep .dat 0xFFFFFFFF [0xBA, 0xFF, 0xFF, 0xFF, 0xFF] = true := by
  decide +kernel
theorem test_mov_bas : movStep .bas 0x80000000 [0xBB, 0x00, 0x00, 0x00, 0x80] = true := by
  decide +kernel
theorem test_mov_sp : movStep .sp 0x100 [0xBC, 0x00, 0x01, 0x00, 0x00] = true := by decide +kernel
theorem test_mov_bp : movStep .bp 0xDEADBEEF [0xBD, 0xEF, 0xBE, 0xAD, 0xDE] = true := by
  decide +kernel
theorem test_mov_si : movStep .si 0x0BADF00D [0xBE, 0x0D, 0xF0, 0xAD, 0x0B] = true := by
  decide +kernel
theorem test_mov_di : movStep .di 0x11223344 [0xBF, 0x44, 0x33, 0x22, 0x11] = true := by
  decide +kernel

/-- A10. -/
def a10 : State := (coreAt 8 5 [0xB8, 0x01, 0x02]).setIp 5

theorem test_mov_operand_outside : stepFails a10 = some (.outOfBounds 6 4, a10.setIp 6) := by
  decide +kernel

/-! ### ADD -/

/-- D1: wrap, carry and zero. -/
theorem test_add_wraps :
    (stepTo ((core 0x20 [0x05, 0x01, 0, 0, 0]).writeReg .acc 0xFFFFFFFF)).map
        (fun t => (t.readReg .acc, t.flags, t.ip))
      = some (0, { Flags.clear with carry := true, zero := true }, 5) := by
  decide +kernel

/-- D10: CF, ZF and SF are cleared, PF, AF and OF stay 1. -/
theorem test_add_clears_its_flags_only :
    (stepTo (((core 0x20 [0x05, 0x02, 0, 0, 0]).writeReg .acc 1).setFlags
        { Flags.clear with carry := true, zero := true, sign := true, parity := true, adjust := true,
                           overflow := true })).map (fun t => (t.readReg .acc, t.flags))
      = some (3, { Flags.clear with parity := true, adjust := true, overflow := true }) := by
  decide +kernel

/-! ### JMP, CALL, RET -/

/-- J2: jump to self. -/
def j2 : State := core 0x20 [0xE9, 0xFB, 0xFF, 0xFF, 0xFF]
theorem test_jmp_to_self : stepTo j2 = some j2 := by decide +kernel

/-- J5: the target is not checked. -/
def j5 : State := (coreAt 0x20 0x10 [0xE9, 0xFF, 0xFF, 0xFF, 0x7F]).setIp 0x10
theorem test_jmp_out : stepTo j5 = some (j5.setIp 0x80000014) := by decide +kernel

/-- J6. -/
def j6 : State := ((coreAt 0x100 5 [0xE8, 0x06, 0, 0, 0]).setIp 5).writeReg .sp 0x80
theorem test_call :
    stepTo j6 = some (((j6.setMem (j6.mem.putBytes 0x7C [0x0A, 0, 0, 0])).setIp 0x10).writeReg .sp 0x7C) := by
  decide +kernel

/-- J8: the push fails, the decrement stays, the jump is not taken. -/
def j8 : State := (core 0x20 [0xE8, 0x10, 0, 0, 0]).writeReg .sp 2
theorem test_call_outside :
    stepFails j8 = some (.outOfBounds 0xFFFFFFFE 4, (j8.setIp 5).writeReg .sp 0xFFFFFFFE) := by
  decide +kernel

/-- J7. -/
def j7 : State :=
  let s := ((coreAt 0x100 0x1A [0xC3]).setIp 0x1A).writeReg .sp 0x7C
  s.setMem (s.mem.putBytes 0x7C [0x0A, 0, 0, 0])
theorem test_ret : stepTo j7 = some ((j7.setIp 0x0A).writeReg .sp 0x80) := by decide +kernel

/-- J9. -/
def j9 : State := (core 0x20 [0xC3]).writeReg .sp 0x1E
theorem test_ret_outside : stepFails j9 = some (.outOfBounds 0x1E 4, j9.setIp 1) := by decide +kernel

/-! ### PUSH and POP -/

/-- One push, by rule R192 (K1's form): register `r` holds `v`, the stack pointer `sp`; afterwards the
slot holds the bytes, and nothing else has changed. -/
def pushStep (r : Reg) (v : Word) (code : Byte) (stored : List Byte) : Bool :=
  let s := ((core 0x100 [code]).writeReg .sp 0x80).writeReg r v
  stepTo s == some (((s.setMem (s.mem.putBytes 0x7C stored)).setIp 1).writeReg .sp 0x7C)

/-- K1. -/
theorem test_push_acc : pushStep .acc 0x55 0x50 [0x55, 0, 0, 0] = true := by decide +kernel
/-- By rule. -/
theorem test_push_cnt : pushStep .cnt 0xDEADBEEF 0x51 [0xEF, 0xBE, 0xAD, 0xDE] = true := by
  decide +kernel
/-- By rule. -/
theorem test_push_dat : pushStep .dat 0x01020304 0x52 [4, 3, 2, 1] = true := by decide +kernel
/-- By rule. -/
theorem test_push_bas : pushStep .bas 0x05060708 0x53 [8, 7, 6, 5] = true := by decide +kernel
/-- K4: the value from before the decrement. -/
theorem test_push_sp : pushStep .sp 0x80 0x54 [0x80, 0, 0, 0] = true := by decide +kernel
/-- K13. -/
theorem test_push_bp : pushStep .bp 0xCAFEBABE 0x55 [0xBE, 0xBA, 0xFE, 0xCA] = true := by
  decide +kernel
/-- By rule. -/
theorem test_push_si : pushStep .si 0x090A0B0C 0x56 [0xC, 0xB, 0xA, 9] = true := by decide +kernel
/-- K3's value. -/
theorem test_push_di : pushStep .di 0xA1B2C3D4 0x57 [0xD4, 0xC3, 0xB2, 0xA1] = true := by
  decide +kernel

/-- R193, `PUSH_SP_VALUE = new`: the decremented value is stored. -/
theorem test_push_sp_decremented :
    (stepTo { (core 0x100 [0x54]).writeReg .sp 0x80 with
      params := { Config.defaultParams with pushSpValue := .decremented } }).map
        (fun t => okOf (t.mem.read32 0x7C)) = some (some 0x7C) := by
  decide +kernel

/-- K7: no rollback. -/
def k7 : State := (core 0x20 [0x50]).writeReg .acc 0x55
theorem test_push_outside :
    stepFails k7 = some (.outOfBounds 0xFFFFFFFC 4, (k7.setIp 1).writeReg .sp 0xFFFFFFFC) := by
  decide +kernel

/-- R62, R65, R69, C5 (log entry 6): at `x[4] = 0` and `N = 2^32` the slot FFFFFFFC passes the bounds
test, and the push stores in Memory's last word. -/
theorem test_push_wraps :
    exec .pushBp ((core (2 ^ 32) []).writeReg .bp 0x11223344)
      = .next ((((core (2 ^ 32) []).writeReg .bp 0x11223344).writeReg .sp 0xFFFFFFFC).setMem
        ((core (2 ^ 32) []).mem.putBytes 0xFFFFFFFC [0x44, 0x33, 0x22, 0x11])) := by
  rfl

/-- R190, R271: for `N < 2^32` the same push raises, even with one byte less. -/
theorem test_push_wraps_below_top :
    exec .pushAcc (core (2 ^ 32 - 1) []) = .fault (.raised (.outOfBounds 0xFFFFFFFC 4)
      ((core (2 ^ 32 - 1) []).writeReg .sp 0xFFFFFFFC)) := by
  rfl

/-- R79: one more byte and the slot crosses 2^32, so the write raises for every `N`. -/
theorem test_push_crosses :
    exec .pushAcc ((core (2 ^ 32) []).writeReg .sp 1) = .fault (.raised (.outOfBounds 0xFFFFFFFD 4)
      ((core (2 ^ 32) []).writeReg .sp 0xFFFFFFFD)) := by
  rfl

/-- One pop, by rule R194: the word at 0x7C goes to `r`. -/
def popStep (r : Reg) (code : Byte) : Bool :=
  let s := (core 0x100 [code]).writeReg .sp 0x7C
  let s := s.setMem (s.mem.putBytes 0x7C [0xEF, 0xBE, 0xAD, 0xDE])
  stepTo s == some (((s.setIp 1).writeReg .sp 0x80).writeReg r 0xDEADBEEF)

theorem test_pop_acc : popStep .acc 0x58 = true := by decide +kernel
theorem test_pop_cnt : popStep .cnt 0x59 = true := by decide +kernel
theorem test_pop_dat : popStep .dat 0x5A = true := by decide +kernel
theorem test_pop_bas : popStep .bas 0x5B = true := by decide +kernel
/-- R195, K6: the loaded value stays, not the incremented pointer. -/
theorem test_pop_sp : popStep .sp 0x5C = true := by decide +kernel
theorem test_pop_bp : popStep .bp 0x5D = true := by decide +kernel
theorem test_pop_si : popStep .si 0x5E = true := by decide +kernel
theorem test_pop_di : popStep .di 0x5F = true := by decide +kernel

/-- K9: an empty stack at the top of Memory. -/
def k9 : State := (core 0x100 [0x58]).writeReg .sp 0x100
theorem test_pop_outside : stepFails k9 = some (.outOfBounds 0x100 4, k9.setIp 1) := by decide +kernel

/-! ### HLT, prefixes, unassigned bytes -/

/-- H1's start: callback 7 at `onHalt`. -/
def h1 : State := (core 0x20 [0xF4, 0x90]).setHooks { Hooks.empty with onHalt := some 7 }
theorem test_hlt :
    stepTo h1 = some (((h1.setIp 1).setHalted true).addCall (.onHalt 7)) := by
  decide +kernel

/-- H2: a halted core fetches nothing. -/
theorem test_halted : stepTo (h1.setHalted true) = some (h1.setHalted true) := by decide +kernel

/-- H5. -/
theorem test_opsize :
    stepTo (core 0x20 [0x66, 0x90]) = some (((core 0x20 [0x66, 0x90]).setIp 2).setOpsize .bits16) := by
  decide +kernel

/-- H7: the address is the opcode byte's own. -/
theorem test_adsize_then_unassigned :
    stepFails (core 0x20 [0x67, 0x0F])
      = some (.unsupportedOpcode 0x0F 1, ((core 0x20 [0x67, 0x0F]).setIp 2).setAddrsize .bits16) := by
  decide +kernel

/-- H8. -/
theorem test_prefixes_to_the_end :
    stepFails (core 2 [0x66, 0x67])
      = some (.outOfBounds 2 1, (((core 2 [0x66, 0x67]).setIp 2).setOpsize .bits16).setAddrsize .bits16) := by
  decide +kernel

/-- H4, on the reset core itself: zero-filled Memory is not NOP. -/
theorem test_reset_step :
    stepFails State.reset = some (.unsupportedOpcode 0x00 0, State.reset.setIp 1) := by
  decide +kernel

/-- R149: `OPSIZE16_POLICY = refuse` gives H9's step no meaning. -/
theorem test_refuse_policy :
    nextOf (step { core 0x20 [0x66, 0x90] with
      params := { Config.defaultParams with opsize16Policy := .refuse } }) = none := by
  decide +kernel

/-! ### withFetchWord -/

theorem test_withFetchWord :
    stepTo (State.reset.withFetchWord 40 0x12345678B8)
      = some (((State.reset.withFetchWord 40 0x12345678B8).setIp 5).writeReg .acc 0x12345678) := by
  decide +kernel

/-! ### run and delivery -/

/-- U1 and U2. -/
theorem test_run :
    run 0 (core 0x20 [0xF4, 0x90]) = .raised (.stepLimitExceeded 0) (core 0x20 [0xF4, 0x90])
      ∧ run 5 h1 = .returned ((((h1.setIp 1).setHalted true).addCall (.onHalt 7)).setRunning true) := by
  decide +kernel

/-- U7 and U8. -/
theorem test_run_failure :
    run 9 (core 0x20 [0x90, 0x0F])
        = .raised (.unsupportedOpcode 0x0F 1) ((core 0x20 [0x90, 0x0F]).setIp 2)
      ∧ run 9 ((core 0x20 [0x90, 0x0F]).setHooks { Hooks.empty with onError := some 3 })
        = .returned ((((core 0x20 [0x90, 0x0F]).setHooks { Hooks.empty with onError := some 3 }).setIp
          2).addCall (.onError 3 (.unsupportedOpcode 0x0F 1))) := by
  decide +kernel

/-- R211. -/
theorem test_codes :
    (Failure.outOfBounds 0 1).kind.code = 1 ∧ (Failure.unsupportedOpcode 0 0).kind.code = 2
      ∧ (Failure.unsupportedAddressingMode 0 0).kind.code = 3
      ∧ (Failure.stepLimitExceeded 0).kind.code = 4 ∧ LoadFailure.invalidHeader.kind.code = 5
      ∧ LoadFailure.unsupported64Bit.kind.code = 6 := by
  decide

/-! ### Memory -/

def m16 : Memory := { size := 0x10, cells := [] }

/-- M2, M5 to M9. -/
theorem test_memory :
    (okOf (m16.write16 5 0xBEEF)).map (fun m => okOf (m.read32 4)) = some (some 0x00BEEF00)
      ∧ errOf (m16.read32 0xD) = some (.outOfBounds 0xD 4) ∧ okOf (m16.read32 0xC) = some 0
      ∧ errOf (m16.write32 0xE 0xFFFFFFFF) = some (.outOfBounds 0xE 4)
      ∧ errOf (m16.read32 0xFFFFFFFE) = some (.outOfBounds 0xFFFFFFFE 4) := by
  decide

/-- M1. -/
theorem test_memory_byte_order :
    (okOf (m16.write32 0 0x11223344)).map (fun m => (okOf (m.read16 0), okOf (m.read16 2), okOf (m.read16 1)))
      = some (some 0x3344, some 0x1122, some 0x2233) := by
  decide

/-- M10, and R62's negative address, through the host's access; and R65's bytes of a number that is
wider than the access. -/
theorem test_host_write :
    (hostAct (.write16 4 0x1BEEF) (core 0x10 [])).state?.map (fun t => t.mem.cells)
        = some [(4, 0xEF), (5, 0xBE)] ∧
    (hostAct (.write8 3 0x1FF) (core 0x10 [])).state?.map (fun t => t.mem.cells) = some [(3, 0xFF)]
      ∧ hostAct (.write8 (-1) 0) (core 0x10 []) = .raised (.outOfBounds (-1) 1) (core 0x10 []) := by
  decide +kernel

/-- Writing the fill value removes the entry. -/
theorem test_memory_canonical : ((m16.putByte 3 7).putByte 3 0) = m16 := by decide

/-! ### Views, flags, primitives -/

/-- V1 to V4. -/
theorem test_views :
    (((core 0 []).writeReg .bas 0x12345678).writeReg16 .bas 0xABCD).readReg .bas = 0x1234ABCD
      ∧ (((core 0 []).writeReg .bas 0x12345678).writeRegLow8 .bas 0xEE).readReg .bas = 0x123456EE
      ∧ (((core 0 []).writeReg .bas 0x12345678).writeRegHigh8 .bas 0xEE).readReg .bas = 0x1234EE78
      ∧ ((core 0 []).writeRegHigh8 .di 0xFF).readReg .di = 0x0000FF00 := by
  decide

/-- V5. -/
theorem test_view_reads :
    ((core 0 []).writeReg .acc 0xA1B2C3D4).readReg16 .acc = 0xC3D4
      ∧ ((core 0 []).writeReg .acc 0xA1B2C3D4).readRegLow8 .acc = 0xD4
      ∧ ((core 0 []).writeReg .acc 0xA1B2C3D4).readRegHigh8 .acc = 0xC3 := by
  decide

/-- F1, F3 to F7. -/
theorem test_packed_flags :
    Flags.pack { Flags.clear with carry := true, zero := true } = 0x41
      ∧ Flags.pack { Flags.clear with sign := true, overflow := true } = 0x880
      ∧ Flags.pack { Flags.clear with interruptEnable := true } = 0x200
      ∧ (Flags.unpack 0xFFFFFFFF).pack = 0xFD5 ∧ Flags.unpack 2 = Flags.clear
      ∧ Flags.unpack 0x415
        = { Flags.clear with carry := true, parity := true, adjust := true, direction := true } := by
  decide

/-- F8 and F9. -/
theorem test_zero_sign_setters :
    [0, 0x80000000, 0x100000000, 0x7FFFFFFF].map
        (fun v => ((Flags.clear.setZS32 v).zero, (Flags.clear.setZS32 v).sign))
      = [(true, false), (false, true), (true, false), (false, false)]
      ∧ [0x100, 0x80, 0x7F, 0xFF].map
        (fun v => ((Flags.clear.setZS8 v).zero, (Flags.clear.setZS8 v).sign))
      = [(true, false), (false, true), (false, false), (false, true)] := by
  decide

/-- X1 to X8. -/
theorem test_sign_extend :
    [(0x7F, 8), (0x80, 8), (0xFF, 8), (0x7FFF, 16), (0x8000, 16), (0x180, 8), (1, 1), (0x80000000, 32)].map
        (fun c => signExtend c.1 c.2)
      = [some 0x7F, some 0xFFFFFF80, some 0xFFFFFFFF, some 0x7FFF, some 0xFFFF8000, some 0xFFFFFF80,
        some 0xFFFFFFFF, some 0x80000000] := by
  decide

/-- The fetch vectors' Memory: byte `i` holds `i`. -/
def counting (ip : Word) : State :=
  (core 0x10 [0, 1, 2, 3, 4, 5, 6, 7, 8, 9, 10, 11, 12, 13, 14, 15]).setIp ip

/-- T2 to T5. -/
theorem test_fetch :
    fetch16 (counting 1) = .done 0x0201 (counting 3) ∧ fetch32 (counting 3) = .done 0x06050403 (counting 7)
      ∧ fetch8 (counting 0xF) = .done 0x0F (counting 0x10)
      ∧ fetch8 (counting 0x10) = .failed (.outOfBounds 0x10 1) (counting 0x10) := by
  decide +kernel

/-- The registers of E1 to E15, with the bytes after the ModRM byte at 0. -/
def eaCore (bytes : List Byte) : State :=
  (core 0x10 bytes).setRegs { acc := 0x1000, cnt := 0x2000, dat := 0x3000, bas := 0xFFFFFFF0,
                              sp := 0x4000, bp := 0x5000, si := 0x6000, di := 0x7000 }

def ea (mod : BitVec 2) (rm : BitVec 3) (bytes : List Byte) : Option (Word × Word) :=
  match effectiveAddress mod rm (eaCore bytes) with
  | .done v t => some (v, t.ip)
  | .failed _ _ => none

/-- E2, E3, E5, E6, E9. -/
theorem test_effective_address :
    ea 0 3 [] = some (0xFFFFFFF0, 0) ∧ ea 0 5 [0x44, 0x33, 0x22, 0x11] = some (0x11223344, 4)
      ∧ ea 1 5 [0xFC] = some (0x4FFC, 1) ∧ ea 1 3 [0x20] = some (0x10, 1)
      ∧ ea 2 5 [0, 0, 0, 0x80] = some (0x80005000, 4) := by
  decide +kernel

/-- E10, E12, E13: nothing is fetched. -/
theorem test_effective_address_unsupported :
    effectiveAddress 1 4 (eaCore [1]) = .failed (.unsupportedAddressingMode 1 4) (eaCore [1])
      ∧ effectiveAddress 3 0 (eaCore []) = .failed (.unsupportedAddressingMode 3 0) (eaCore [])
      ∧ effectiveAddress 3 7 (eaCore []) = .failed (.unsupportedAddressingMode 3 7) (eaCore []) := by
  decide +kernel

/-- E15's byte: `6D` is 1, 5, 5. -/
theorem test_modrm : ModRM.ofByte 0x6D = { mod := 1, reg := 5, rm := 5 } := by decide

/-! ### The Loader: P7 -/

/-- P7's buffer, with bytes replaced by the given ones at given offsets. -/
def p7 (changes : List (Nat × List Byte)) : List Byte :=
  let put (m : Memory) (f : Nat × List Byte) : Memory := m.putBytes f.1 f.2
  let fields : List (Nat × List Byte) :=
    [(0x00, [0x4D, 0x5A]), (0x3C, [0x40]), (0x40, [0x50, 0x45]), (0x46, [2]), (0x54, [0x20]),
     (0x58, [0x0B, 0x01]), (0x69, [0x10]), (0x76, [1]), (0x85, [0x10]), (0x88, [6]), (0x8C, [0xC8]),
     (0xAD, [0x20]), (0xB0, [4]), (0xB4, [0xCE]), (0xC8, [0xB8, 0x2A, 0, 0, 0, 0xF4]),
     (0xCE, [0xDE, 0xAD, 0xBE, 0xEF])]
  ((fields ++ changes).foldl put { size := 0xD2, cells := [] }).bytesFrom 0 0xD2

def loadP7 (n : Nat) (changes : List (Nat × List Byte)) : LoadEnd :=
  load Config.defaultParams Config.defaultLoaderParams n (p7 changes)

theorem test_load :
    (match loadP7 0x120000 [] with
      | .loaded s => some (s.mem.bytesFrom 0x11000 6, s.mem.bytesFrom 0x12000 4, s.ip, s.readReg .sp, s.readReg .bp)
      | .failed _ => none
      | .noMeaning => none)
      = some ([0xB8, 0x2A, 0, 0, 0, 0xF4], [0xDE, 0xAD, 0xBE, 0xEF], 0x11000, 0x110000, 0x110000) := by
  decide +kernel

/-- Variants (a) to (e). -/
theorem test_load_fails :
    loadP7 0x120000 [(0, [0x4E])] = .failed .invalidHeader
      ∧ loadP7 0x120000 [(0x58, [0x0B, 0x02])] = .failed .unsupported64Bit
      ∧ loadP7 0x120000 [(0x40, [0x50, 0x45, 0, 1])] = .failed .invalidHeader
      ∧ loadP7 0x120000 [(0xB0, [5])] = .failed .outOfBounds
      ∧ loadP7 0x12003 [] = .failed .outOfBounds := by
  decide +kernel

/-- R266, U6: asked to include a syscall hook, the load is refused; a bad header still fails first. -/
theorem test_load_hook :
    load Config.defaultParams { Config.defaultLoaderParams with syscallHook := some 0x7000 } 0x120000 (p7 [])
        = .noMeaning
      ∧ load Config.defaultParams { Config.defaultLoaderParams with syscallHook := some 0x7000 } 0x120000
        (p7 [(0, [0x4E])]) = .failed .invalidHeader := by
  decide +kernel

/-! ### Witnesses: the hypotheses of each statement can be met, clause by clause -/

/-- A step's instruction with one prefix of each kind. -/
def sampleCode : StepCode := ⟨[.opsize, .adsize], .movSi 0xFFFFFFFF⟩

theorem witness_DecodeOfEncodedStep :
    Config.defaultOpcodes.legal ∧ others.legal ∧ sampleCode.wf = true := by decide +kernel

theorem witness_DecodedBytesAreTheEncoding :
    stepRow [0x66, 0x90, 0xF4] = .ok (⟨[.opsize], .nop⟩, [0xF4]) := by rfl

/-- The ends of R100's ranges, and their assigned neighbours. -/
theorem witness_UnassignedBytesRefused :
    [0x00, 0x04, 0x06, 0x4F, 0x60, 0x65, 0x68, 0x8F, 0x91, 0xB7, 0xC0, 0xC2, 0xC4, 0xE7, 0xEA, 0xF3,
        0xF5, 0xFF].all (fun b => unassigned Config.defaultOpcodes b && unassignedByDefault b) = true
      ∧ [0x05, 0x50, 0x5F, 0x66, 0x67, 0x90, 0xB8, 0xBF, 0xC3, 0xE8, 0xE9, 0xF4].all
        (fun b => !unassigned Config.defaultOpcodes b && !unassignedByDefault b) = true := by
  decide +kernel

/-- Both clauses, at the ends of the MOV group. -/
theorem witness_OpcodeAloneGivesLength :
    Config.defaultOpcodes.legal ∧ (row (0xB8 :: [1, 2, 3, 4, 5]) = .ok (.movAcc 0x04030201, [5]) ∧ takesOperand Config.defaultOpcodes 0xB8 = true)
      ∧ (row (0xBF :: [1, 2, 3, 4]) = .ok (.movDi 0x04030201, []) ∧ takesOperand Config.defaultOpcodes 0xBF = true)
      ∧ row (0xC3 :: [7]) = .ok (.ret, [7]) ∧ takesOperand Config.defaultOpcodes 0xC3 = false := by
  refine ⟨default_legal, ⟨rfl, by decide⟩, ⟨rfl, by decide⟩, rfl, by decide⟩

/-- A prefixed MOV whose last byte is Memory's last. -/
def prefixedMov : State := (coreAt 8 2 [0x66, 0xB8, 0x78, 0x56, 0x34, 0x12]).setIp 2

theorem witness_StepRunsDecodedInstruction :
    prefixedMov.halted = false ∧ prefixedMov.ip.toNat + 6 ≤ prefixedMov.mem.size
      ∧ prefixedMov.ip.toNat + 6 ≤ 2 ^ 32
      ∧ stepRow (prefixedMov.mem.bytesFrom prefixedMov.ip.toNat 6)
        = .ok (⟨[.opsize], .movAcc 0x12345678⟩, [])
      ∧ mayDispatch (prefixedMov.flipToggles [.opsize]) = true := by
  refine ⟨rfl, by decide, by decide, rfl, by decide⟩

theorem witness_StepExecutesPrefixThenGoesOn :
    prefixedMov.Inv ∧ prefixedMov.halted = false ∧ prefixedMov.ip.toNat + 1 ≤ prefixedMov.mem.size
      ∧ Config.defaultOpcodes.prefixOf (prefixedMov.mem.byteAt prefixedMov.ip.toNat) = some .opsize := by
  decide +kernel

theorem witness_UnassignedOpcodeRaises :
    (core 2 [0x67, 0x0F]).Inv ∧ (core 2 [0x67, 0x0F]).halted = false ∧ unassigned Config.defaultOpcodes 0x0F = true
      ∧ (core 2 [0x67, 0x0F]).codeAtIp (prefixBytes Config.defaultOpcodes [.adsize] ++ [0x0F])
      ∧ mayDispatch ((core 2 [0x67, 0x0F]).flipToggles [.adsize]) = true := by
  decide +kernel

theorem witness_OpcodeFetchOutOfBoundsRaises :
    (core 2 [0x66, 0x67]).Inv ∧ (core 2 [0x66, 0x67]).halted = false
      ∧ (core 2 [0x66, 0x67]).codeAtIp (prefixBytes Config.defaultOpcodes [.opsize, .adsize])
      ∧ ¬ ((core 2 [0x66, 0x67]).past 2 [.opsize, .adsize]).ip.toNat + 1 ≤ (core 2 [0x66, 0x67]).mem.size := by
  decide +kernel

/-- One byte of the operand is missing. -/
theorem witness_OperandFetchOutOfBoundsRaises :
    (core 4 [0x05, 1, 0, 0]).Inv ∧ (core 4 [0x05, 1, 0, 0]).halted = false ∧ takesOperand Config.defaultOpcodes 0x05 = true
      ∧ (core 4 [0x05, 1, 0, 0]).codeAtIp (prefixBytes Config.defaultOpcodes [] ++ [0x05])
      ∧ mayDispatch ((core 4 [0x05, 1, 0, 0]).flipToggles []) = true
      ∧ ¬ ((core 4 [0x05, 1, 0, 0]).past 1 []).ip.toNat + 4 ≤ (core 4 [0x05, 1, 0, 0]).mem.size := by
  decide +kernel

/-- A core of the other policy. -/
def refusing : State :=
  { core 0x20 [0x66, 0x90] with params := { Config.defaultParams with opsize16Policy := .refuse } }

theorem witness_PolicyDecidesWhetherStepHasMeaning :
    State.reset.params.opsize16Policy = .ignore ∧ refusing.Inv ∧ refusing.halted = false
      ∧ refusing.params.opsize16Policy = .refuse ∧ Config.defaultOpcodes.prefixOf 0x90 = none
      ∧ refusing.codeAtIp (prefixBytes Config.defaultOpcodes [.opsize] ++ [0x90])
      ∧ (refusing.flipToggles [.opsize]).opsize = .bits16 := by
  decide +kernel

theorem witness_TogglesHaveNoEffect : State.reset.params.opsize16Policy = .ignore := by decide

/-- The core with `N = n` and the prefix byte `66` everywhere. -/
def allPrefixes (n : Nat) : State :=
  (State.create Config.defaultParams n).setMem
    { size := n, cells := (List.range n).map fun a => (a, 0x66) }

theorem lookup_const (l : List Nat) (x : Nat) (h : x ∈ l) :
    lookupCell (l.map fun a => (a, (0x66 : Byte))) x = 0x66 := by
  induction l with
  | nil => simp at h
  | cons a l ih =>
    simp only [List.map_cons, lookupCell]
    by_cases hax : a = x
    · rw [if_pos hax]
    · rw [if_neg hax]
      exact ih (by simpa [Ne.symm hax] using h)

theorem allPrefixes_byteAt (n a : Nat) (h : a < n) : (allPrefixes n).mem.byteAt a = 0x66 :=
  lookup_const _ _ (List.mem_range.2 h)

theorem allPrefixes_inv (n : Nat) (h : n ≤ 2 ^ 32) : (allPrefixes n).Inv := by
  refine ⟨⟨?_, ?_, h⟩, default_legal⟩
  · exact List.pairwise_map.2 (List.pairwise_lt_range)
  · intro c hc
    obtain ⟨a, ha, rfl⟩ := List.mem_map.1 hc
    exact ⟨(by decide : (0x66 : Byte) ≠ Config.memoryFill), List.mem_range.1 ha⟩

/-- Both sides of the equivalence: a core whose step never ends, and a core whose step ends. -/
theorem witness_StepEndlessExactlyOnAllPrefixes :
    ((allPrefixes (2 ^ 32)).Inv ∧ (allPrefixes (2 ^ 32)).halted = false
      ∧ (allPrefixes (2 ^ 32)).mem.size = 2 ^ 32
      ∧ ∀ a : Nat, a < 2 ^ 32 → ((allPrefixes (2 ^ 32)).params.opcodes.prefixOf ((allPrefixes (2 ^ 32)).mem.byteAt a)).isSome = true)
      ∧ State.reset.Inv ∧ faultOf (step State.reset) ≠ some .endlessPrefixes := by
  refine ⟨⟨allPrefixes_inv _ (Nat.le_refl _), rfl, rfl, fun a ha => ?_⟩, by decide, by decide +kernel⟩
  rw [allPrefixes_byteAt _ a ha]
  rfl

/-- A failure of each of the three kinds. -/
theorem witness_StepFailureKinds :
    step a10 = .fault (.raised (.outOfBounds 6 4) (a10.setIp 6))
      ∧ step (core 0 []) = .fault (.raised (.outOfBounds 0 1) (core 0 []))
      ∧ step (core 1 []) = .fault (.raised (.unsupportedOpcode 0 0) ((core 1 []).setIp 1)) := by
  refine ⟨rfl, rfl, rfl⟩

/-- Memory ends with the NOP. -/
theorem witness_NopChangesOnlyIp :
    (core 1 [0x90]).Inv ∧ (core 1 [0x90]).halted = false ∧ mayDispatch (core 1 [0x90]) = true
      ∧ (core 1 [0x90]).codeAtIp [0x90] := by
  decide +kernel

theorem witness_PackedFlagsRoundTrip : (1 = 1 ∨ 1 = 3 ∨ 1 = 5 ∨ 12 ≤ 1) ∧ 12 ≤ 12 := by decide

theorem witness_AddOfNegativeImmediateSubtracts :
    (1 ≤ 1 ∧ 1 ≤ 2 ^ 32 - 1) ∧ 1 ≤ 2 ^ 32 - 1 ∧ 2 ^ 32 - 1 ≤ 2 ^ 32 - 1 := by decide

/-- A JMP to 0x10 behind two prefixes, ending at Memory's last byte. -/
def prefixedJmp : State :=
  core 7 (encodeStep Config.defaultOpcodes ⟨[.opsize, .opsize], .jmp (relTo 0 0x10 2)⟩)

theorem witness_JumpReachesItsAssembledTarget :
    prefixedJmp.Inv ∧ prefixedJmp.halted = false
      ∧ prefixedJmp.codeAtIp (encodeStep Config.defaultOpcodes ⟨[.opsize, .opsize], .jmp (relTo prefixedJmp.ip 0x10 2)⟩)
      ∧ mayDispatch (prefixedJmp.flipToggles [.opsize, .opsize]) = true := by
  decide +kernel

/-- Room for one word exactly: the slot is the last word of Memory, and the first; and the last of a
Memory of 2^32 bytes. -/
theorem witness_CallPushesReturnAddress :
    ((core 0x20 []).writeReg .sp 0x20).pushPasses ∧ ((core 4 []).writeReg .sp 4).pushPasses
      ∧ (core (2 ^ 32) []).pushPasses := by
  decide

theorem witness_RetPopsInstructionPointer :
    (((core 0x20 []).writeReg .sp 0x1C).readReg .sp).toNat + 4 ≤ ((core 0x20 []).writeReg .sp 0x1C).mem.size := by
  decide

theorem witness_PushStoresRegister :
    ((core 0x20 []).writeReg .sp 0x20).pushPasses ∧ ((core 4 []).writeReg .sp 4).pushPasses := by
  decide

theorem witness_PopLoadsRegister :
    (((core 0x20 []).writeReg .sp 0x1C).readReg .sp).toNat + 4 ≤ ((core 0x20 []).writeReg .sp 0x1C).mem.size
      ∧ Reg.acc ≠ .sp := by
  decide

/-- One byte too little at either end of Memory, and a slot that crosses 2^32. -/
theorem witness_FailedPushLeavesDecrement :
    Instr.pushSp = Instr.push .sp
      ∧ ¬ ((core 0x20 []).writeReg .sp 3).pushPasses ∧ ¬ ((core 0x20 []).writeReg .sp 0x21).pushPasses
      ∧ ¬ ((core (2 ^ 32) []).writeReg .sp 3).pushPasses := by
  decide

theorem witness_FailedPopChangesNothing :
    Instr.popSp = Instr.pop .sp
      ∧ ¬ (((core 0x20 []).writeReg .sp 0x1D).readReg .sp).toNat + 4
        ≤ ((core 0x20 []).writeReg .sp 0x1D).mem.size := by
  decide

/-- Capacities on both sides of R271's limit, and room at the ends of a small Memory. -/
theorem witness_PushSucceedsIffStackInside :
    (core (2 ^ 32 - 1) []).mem.size < 2 ^ 32 ∧ (core (2 ^ 32) []).mem.size = 2 ^ 32
      ∧ ((core 8 []).writeReg .sp 8).roomFor (1 + 1) ∧ ((core 4 []).writeReg .sp 4).roomFor (0 + 1) := by
  decide

theorem witness_PushThenPopMovesValue :
    j6.params.pushSpValue = .old
      ∧ exec (Instr.push .sp) j6
        = .next ((j6.writeReg .sp 0x7C).setMem (j6.mem.putBytes 0x7C [0x80, 0, 0, 0])) := by
  refine ⟨rfl, rfl⟩

/-- The state a CALL leaves, itself returned from. -/
def afterCall : State :=
  ((j6.writeReg .sp 0x7C).setMem (j6.mem.putBytes 0x7C [0x05, 0, 0, 0])).setIp 0x15

theorem witness_CallThenRetReturns :
    exec (.call 0x10) j6 = .next afterCall ∧ afterCall.readReg .sp = afterCall.readReg .sp
      ∧ afterCall.mem.size = afterCall.mem.size := by
  refine ⟨rfl, rfl, rfl⟩

/-- The premise of the four whole-machine rules: an instruction that stores, one that writes flags, one
that halts, and a prefix, each with its next state. -/
theorem witness_whole_machine_rules :
    exec .pushSp j6 = .next ((j6.writeReg .sp 0x7C).setMem (j6.mem.putBytes 0x7C [0x80, 0, 0, 0]))
      ∧ exec (.addAcc 0) State.reset = .next (State.reset.setFlags { Flags.clear with zero := true })
      ∧ exec .hlt State.reset = .next (State.reset.setHalted true)
      ∧ exec .opsize State.reset = .next (State.reset.setOpsize .bits16) := by
  refine ⟨rfl, rfl, rfl, rfl⟩

/-- Both clauses: a step that stores, and a step that fails after a prefix. -/
theorem witness_StepKeepsInvariant :
    j6.Inv ∧ step j6
        = .next (((j6.writeReg .sp 0x7C).setMem (j6.mem.putBytes 0x7C [0x0A, 0, 0, 0])).setIp 0x10)
      ∧ (core 2 [0x66, 0x67]).Inv
      ∧ step (core 2 [0x66, 0x67])
        = .fault (.raised (.outOfBounds 2 1) ((core 2 [0x66, 0x67]).past 2 [.opsize, .adsize])) := by
  refine ⟨by decide +kernel, rfl, by decide +kernel, rfl⟩

/-- The least and the largest capacity; code of one byte in the smallest Memory, and at the top of the
largest. -/
theorem witness_CreatedCoreIsLaunchable :
    Config.defaultParams.opcodes.legal ∧ 0 ≤ 2 ^ 32 ∧ 2 ^ 32 ≤ 2 ^ 32
      ∧ (([0x90] : List Byte) ≠ [] ∧ (0 : Word).toNat + ([0x90] : List Byte).length ≤ 1)
      ∧ (0xFFFFFFFF : Word).toNat + ([0x90] : List Byte).length ≤ 2 ^ 32 := by
  decide +kernel

theorem witness_HostActionKeepsInvariant :
    (core 4 []).Inv
      ∧ (hostAct (.write32 0 1) (core 4 [])).state? = some ((core 4 []).setMem { size := 4, cells := [(0, 1)] })
      ∧ (hostAct (.write32 1 1) (core 4 [])).state? = some (core 4 []) := by
  decide +kernel

/-- The action that calls the hook. -/
theorem witness_HaltHookCalledAtMostOnce :
    h1.haltCallsOnce
      ∧ (hostAct (.run 3) h1).state?
        = some ((((h1.setIp 1).setHalted true).addCall (.onHalt 7)).setRunning true) := by
  decide +kernel

theorem witness_HaltIsFinal : (State.reset.setHalted true).halted = true := by decide

theorem witness_HaltedCoreDoesNothing : (State.reset.setHalted true).halted = true := by decide

/-- The four ends of the loop: all steps done, a failure, a step that never ends, a step without a
meaning. -/
theorem witness_RunIsIteratedSteps :
    stepTimes 1 (j2.setRunning true) = .next (j2.setRunning true)
      ∧ stepTimes 2 ((core 1 [0x90]).setRunning true)
        = .fault (.raised (.outOfBounds 1 1) (((core 1 [0x90]).setRunning true).setIp 1))
      ∧ stepTimes 1 ((allPrefixes (2 ^ 32)).setRunning true) = .fault .endlessPrefixes
      ∧ stepTimes 1 (refusing.setRunning true) = .refused .dispatchUnder16BitToggle := by
  refine ⟨rfl, rfl, ?_, rfl⟩
  have hf : fetchInstr ((allPrefixes (2 ^ 32)).setRunning true) = .endless := by
    refine (fetchLoop_endless_iff _ _).2 fun k _ => ?_
    have hlt := (((allPrefixes (2 ^ 32)).setRunning true).ip + BitVec.ofNat 32 k).isLt
    refine ⟨hlt, ?_⟩
    rw [State.setRunning_mem, allPrefixes_byteAt _ _ hlt]
    rfl
  have hs : step ((allPrefixes (2 ^ 32)).setRunning true) = .fault .endlessPrefixes := by
    rw [step_of_live _ rfl, stepLive, hf]
  rw [stepTimes, hs]

theorem witness_DeliveryClearsRunning :
    h1.hooks.onError = none
      ∧ (h1.setHooks { Hooks.empty with onError := some 3 }).hooks.onError = some 3 := by
  decide

/-- U5's core with callback 3 at `onError`. -/
def hooked : State :=
  (core 0x20 [0x90, 0xF4]).setHooks { Hooks.empty with onError := some 3 }

/-- By R154 and R223: the chunked run of that core halts as one run does, and has called its hook
once. -/
theorem test_chunked_run :
    (run 1 ((hooked.setIp 1).addCall (.onError 3 (.stepLimitExceeded 1)))).eraseLimits
        = (run 2 hooked).eraseLimits
      ∧ ((run 1 hooked).state?.map fun t => t.hookCalls) = some [.onError 3 (.stepLimitExceeded 1)] := by
  decide +kernel

/-- U5, at the smallest budget that ends by it; without and with an error hook. -/
theorem witness_ChunkedRunIsOneRun :
    (core 0x20 [0x90, 0xF4]).hooks.onError = none
      ∧ stepTimes 1 ((core 0x20 [0x90, 0xF4]).setRunning true)
        = .next (((core 0x20 [0x90, 0xF4]).setRunning true).setIp 1)
      ∧ (((core 0x20 [0x90, 0xF4]).setRunning true).setIp 1).halted = false
      ∧ (run 1 (core 0x20 [0x90, 0xF4])).state? = some ((core 0x20 [0x90, 0xF4]).setIp 1)
      ∧ stepTimes 1 (hooked.setRunning true) = .next ((hooked.setRunning true).setIp 1)
      ∧ (run 1 hooked).state? = some ((hooked.setIp 1).addCall (.onError 3 (.stepLimitExceeded 1))) := by
  refine ⟨rfl, rfl, rfl, rfl, rfl, rfl⟩

/-- Memories that the access just fits. -/
theorem witness_MultiByteAccessIsLittleEndian :
    0 + 2 ≤ ({ size := 2, cells := [] } : Memory).size ∧ 0xC + 4 ≤ m16.size := by decide

/-- The last two addresses of the address space. -/
theorem witness_AccessFailsExactlyOutsideMemory :
    ({ size := 2 ^ 32, cells := [] } : Memory).size ≤ 2 ^ 32 ∧ 2 ^ 32 < 0xFFFFFFFD + 4 := by decide

/-- The first and the last address each width fits, and the addresses beside them. -/
theorem witness_HostAccessIsAllOrNothing :
    ((core 4 []).spans 0 4 ∧ (core 4 []).spans 3 1 ∧ (core 4 []).spans 2 2)
      ∧ ¬ (core 4 []).spans (-1) 1 ∧ ¬ (core 4 []).spans 3 2 ∧ ¬ (core 4 []).spans 1 4 := by
  decide

theorem witness_ReadSeesLastWrite :
    m16.write32 0xC 0x11223344
      = .ok { size := 0x10, cells := [(0xC, 0x44), (0xD, 0x33), (0xE, 0x22), (0xF, 0x11)] } := by
  rfl

/-- By R32: each flag at its own bit. -/
theorem test_flag_positions :
    [Flags.pack { Flags.clear with parity := true }, Flags.pack { Flags.clear with adjust := true },
      Flags.pack { Flags.clear with trap := true }, Flags.pack { Flags.clear with direction := true }]
      = [0x4, 0x10, 0x100, 0x400] := by
  decide

theorem witness_SubWidthViewsAlias :
    0 < 32 ∧ 31 < 32 ∧ 15 < 16 ∧ 7 < 8 ∧ (8 ≤ 8 ∧ 8 < 16) ∧ (8 ≤ 15 ∧ 15 < 16) := by decide

theorem witness_SignExtendIsTwosComplement :
    (1 ≤ 1 ∧ 1 ≤ 32) ∧ (1 ≤ 32 ∧ 32 ≤ 32) ∧ (0 < 1 ∨ 32 < 0) ∧ (33 < 1 ∨ 32 < 33) := by decide

/-- T1 to T7: each read that succeeds and each that fails. -/
theorem witness_FetchReadsThenAdvances :
    (counting 0xF).mem.read8 (counting 0xF).ip.toNat = .ok 0x0F
      ∧ (counting 0xE).mem.read16 (counting 0xE).ip.toNat = .ok 0x0F0E
      ∧ (counting 0xC).mem.read32 (counting 0xC).ip.toNat = .ok 0x0F0E0D0C
      ∧ ¬ (counting 0x10).ip.toNat + 1 ≤ (counting 0x10).mem.size
      ∧ ¬ (counting 0xF).ip.toNat + 2 ≤ (counting 0xF).mem.size
      ∧ ¬ (counting 0xD).ip.toNat + 4 ≤ (counting 0xD).mem.size := by
  refine ⟨rfl, rfl, rfl, ?_, ?_, ?_⟩ <;> decide

/-- Both rows of `mod = 0`, and a displacement fetched and not fetched. -/
theorem witness_EffectiveAddressOfSupportedForms :
    ((7 : BitVec 3) ≠ 4 ∧ (7 : BitVec 3) ≠ 5) ∧ (5 : BitVec 3) ≠ 4
      ∧ fetch8 (counting 0xF) = .done 0x0F (counting 0x10)
      ∧ fetch32 (counting 0xC) = .done 0x0F0E0D0C (counting 0x10)
      ∧ fetch8 (counting 0x10) = .failed (.outOfBounds 0x10 1) (counting 0x10)
      ∧ fetch32 (counting 0xD) = .failed (.outOfBounds 0xD 4) (counting 0xD) := by
  decide +kernel

theorem witness_UnsupportedFormsRaise :
    ((3 : BitVec 2) = 3 ∨ (0 : BitVec 3) = 4) ∧ ((0 : BitVec 2) = 3 ∨ (4 : BitVec 3) = 4)
      ∧ effectiveAddress 2 4 (counting 0)
        = .failed (.unsupportedAddressingMode 2 4) (counting 0) := by
  decide +kernel

theorem witness_ModRMSplitsEveryByte : (counting 0xF).mem.read8 (counting 0xF).ip.toNat = .ok 0x0F := by
  rfl

/-- P7's variants (a), (c) and (b). -/
theorem witness_LoaderRejectsBadHeaders :
    (bufU16 (p7 [(0, [0x4E])]) 0 = .ok 0x5A4E ∧ 0x5A4E ≠ Config.defaultLoaderParams.sigMZ)
      ∧ (bufU16 (p7 [(0x43, [1])]) 0 = .ok Config.defaultLoaderParams.sigMZ
        ∧ bufU32 (p7 [(0x43, [1])]) 0x3C = .ok 0x40
        ∧ bufU32 (p7 [(0x43, [1])]) 0x40 = .ok 0x01004550
        ∧ 0x01004550 ≠ Config.defaultLoaderParams.sigPE)
      ∧ bufU16 (p7 [(0x59, [2])]) 0 = .ok Config.defaultLoaderParams.sigMZ
      ∧ bufU32 (p7 [(0x59, [2])]) 0x3C = .ok 0x40
      ∧ bufU32 (p7 [(0x59, [2])]) 0x40 = .ok Config.defaultLoaderParams.sigPE
      ∧ bufU16 (p7 [(0x59, [2])]) 0x58 = .ok 0x020B
      ∧ 0x020B ≠ Config.defaultLoaderParams.magicPE32 := by
  decide +kernel

theorem witness_LoadGivesLaunchState :
    Config.defaultParams.opcodes.legal ∧ 0x120000 ≤ 2 ^ 32
      ∧ ∃ s : State, loadP7 0x120000 [] = .loaded s
        ∧ s.codeAtIp [0xB8, 0x2A, 0, 0, 0, 0xF4] := by
  refine ⟨default_legal, by decide, ?_⟩
  have h : (match loadP7 0x120000 [] with
      | .loaded s => decide (s.codeAtIp [0xB8, 0x2A, 0, 0, 0, 0xF4])
      | .failed _ => false
      | .noMeaning => false) = true := by decide +kernel
  cases hl : loadP7 0x120000 [] with
  | loaded s =>
    rw [hl] at h
    exact ⟨s, rfl, of_decide_eq_true h⟩
  | failed e =>
    rw [hl] at h
    cases h
  | noMeaning =>
    rw [hl] at h
    cases h

/-- A copy that just fits both buffers, and one that runs past each. -/
theorem witness_SectionCopyPlacesBytes :
    copySection [1, 2, 3] 4 { virtualAddress := 8, rawSize := 2, rawFileOffset := 1 } { size := 14, cells := [] }
        = .ok { size := 14, cells := [(12, 2), (13, 3)] }
      ∧ copySection [1, 2, 3] 4 { virtualAddress := 8, rawSize := 2, rawFileOffset := 2 } { size := 14, cells := [] }
        = .error .outOfBounds
      ∧ copySection [1, 2, 3] 4 { virtualAddress := 8, rawSize := 2, rawFileOffset := 1 } { size := 13, cells := [] }
        = .error .outOfBounds := by
  refine ⟨rfl, rfl, rfl⟩

end Sys2Proof.Tests
end

/-! SUPPORT. What an instruction that completes has done: one inversion lemma over all instructions,
and the frames of registers, flags and control state that follow from it. -/

namespace Sys2Proof.Machine

/-! ### Inversion of `exec` -/

/-- How an instruction completes, form by form, with the test its stack access passed: the
instruction and the next state (R160, R161, R171, R180 to R182, R190 to R195, R200, R143). -/
inductive Completes (s : State) : Instr → State → Prop
  | nop : Completes s .nop s
  | mov (r : Reg) (imm : Word) : Completes s (Instr.mov r imm) (s.writeReg r imm)
  | addAcc (imm : Word) : Completes s (.addAcc imm)
      ((s.writeReg .acc (adder (s.readReg .acc) imm).1).setFlags
        (s.flags.afterAdd (adder (s.readReg .acc) imm).1 (adder (s.readReg .acc) imm).2))
  | jmp (rel : Word) : Completes s (.jmp rel) (s.setIp (s.ip + rel))
  | call (rel : Word) (passes : s.pushPasses) : Completes s (.call rel)
      (((s.writeReg .sp (pushSlot s)).setMem
        (s.mem.putBytes (pushSlot s).toNat (bytes32 s.ip))).setIp (s.ip + rel))
  | ret (v : Word) (loaded : s.mem.read32 (s.readReg .sp).toNat = .ok v) : Completes s .ret
      ((s.writeReg .sp (s.readReg .sp + 4)).setIp v)
  | push (r : Reg) (passes : s.pushPasses) : Completes s (Instr.push r)
      ((s.writeReg .sp (pushSlot s)).setMem
        (s.mem.putBytes (pushSlot s).toNat (bytes32 (pushedValue r s))))
  | pop (r : Reg) (v : Word) (loaded : s.mem.read32 (s.readReg .sp).toNat = .ok v) :
      Completes s (Instr.pop r) ((s.writeReg .sp (s.readReg .sp + 4)).writeReg r v)
  | hlt : Completes s .hlt
      { s with halted := true
               hookCalls := s.hookCalls ++ (s.hooks.onHalt.map HookCall.onHalt).toList }
  | override (p : Override) : Completes s p.toInstr (s.flipToggle p)

/-- The call of the halt hook is one more entry in the record of calls, or none (R226). -/
theorem callOnHalt_eq (s : State) :
    callOnHalt s
      = { s with hookCalls := s.hookCalls ++ (s.hooks.onHalt.map HookCall.onHalt).toList } := by
  cases hc : s.hooks.onHalt with
  | none => simp [hc]
  | some c => simp [callOnHalt_of_some s c hc, State.addCall]

theorem completes_of_exec {i : Instr} {s t : State} (h : exec i s = .next t) :
    Completes s i t := by
  rcases Instr.forms i with rfl | rfl | rfl | ⟨p, rfl⟩ | ⟨r, imm, rfl⟩ | ⟨imm, rfl⟩ | ⟨rel, rfl⟩
    | ⟨rel, rfl⟩ | ⟨r, rfl⟩ | ⟨r, rfl⟩
  · cases h
    exact .nop
  · rw [exec, execRet_eq] at h
    split at h <;> cases h
    exact .ret _ ((Memory.access_ok_iff ..).2 ⟨‹_›, rfl⟩)
  · rw [exec, execHlt, callOnHalt_eq] at h
    cases h
    exact .hlt
  · rw [exec_prefix] at h
    cases h
    exact .override p
  · rw [exec_mov] at h
    cases h
    exact .mov r imm
  · cases h
    exact .addAcc imm
  · cases h
    exact .jmp rel
  · rw [exec, execCall_eq] at h
    split at h <;> cases h
    exact .call rel ‹_›
  · rw [exec_push, pushReg_eq] at h
    split at h <;> cases h
    exact .push r ‹_›
  · rw [exec_pop, popReg_eq] at h
    split at h <;> cases h
    exact .pop r _ ((Memory.access_ok_iff ..).2 ⟨‹_›, rfl⟩)

/-! ### Registers (R27) -/

@[simp] theorem writtenRegs_mov (r : Reg) (imm : Word) : writtenRegs (Instr.mov r imm) = [r] := by
  cases r <;> rfl

@[simp] theorem writtenRegs_push (r : Reg) : writtenRegs (Instr.push r) = [.sp] := by
  cases r <;> rfl

@[simp] theorem mem_writtenRegs_pop (r q : Reg) :
    q ∈ writtenRegs (Instr.pop r) ↔ q = .sp ∨ q = r := by
  cases r <;> simp [Instr.pop, writtenRegs]

/-- Settles O32: registers are written by `writeReg` alone, and each meaning calls it on registers of
its own row. -/
theorem registersWrittenAreThoseOfTheTable : Obligations.RegistersWrittenAreThoseOfTheTable := by
  unfold Obligations.RegistersWrittenAreThoseOfTheTable
  intro i s t h
  cases completes_of_exec h with
  | nop => exact fun _ _ => rfl
  | mov r imm => exact writtenRegs_mov r imm ▸ writeReg_frame s r imm
  | addAcc imm => exact writeReg_frame s .acc _
  | jmp rel => exact fun _ _ => rfl
  | call rel _ => exact writeReg_frame s .sp _
  | ret v _ => exact writeReg_frame s .sp _
  | push r _ => exact writtenRegs_push r ▸ writeReg_frame s .sp _
  | pop r v _ =>
    intro q hq
    obtain ⟨hsp, hr⟩ := not_or.1 (mt (mem_writtenRegs_pop r q).2 hq)
    rw [State.readReg_writeReg_of_ne _ r q v hr, State.readReg_writeReg_of_ne s .sp q _ hsp]
  | hlt => exact fun _ _ => rfl
  | override p => exact fun q _ => s.readReg_flipToggle p q

/-! ### Flags (R38, R172) -/

theorem Flags.sameFlagsButAdd_afterAdd (f : Flags) (res : Word) (carry : Bool) :
    sameFlagsButAdd f (f.afterAdd res carry) :=
  ⟨rfl, rfl, rfl, rfl, rfl, rfl⟩

theorem exec_flags_of_ne_addAcc {i : Instr} {s t : State} (h : exec i s = .next t)
    (hi : ∀ imm : Word, i ≠ .addAcc imm) : t.flags = s.flags := by
  cases completes_of_exec h with
  | addAcc imm => exact absurd rfl (hi imm)
  | _ => simp

/-- Settles O34: ADD updates the flags by `afterAdd`, and every other instruction leaves all nine. -/
theorem onlyAddWritesFlags : Obligations.OnlyAddWritesFlags := by
  unfold Obligations.OnlyAddWritesFlags
  intro i s t h
  refine ⟨?_, exec_flags_of_ne_addAcc h⟩
  by_cases hi : ∃ imm : Word, i = .addAcc imm
  · obtain ⟨imm, rfl⟩ := hi
    cases h
    exact s.flags.sameFlagsButAdd_afterAdd _ _
  · rw [exec_flags_of_ne_addAcc h (not_exists.1 hi)]
    exact ⟨rfl, rfl, rfl, rfl, rfl, rfl⟩

/-! ### Control state (R28, R39 to R42, R144) -/

theorem exec_halt_frame {i : Instr} {s t : State} (h : exec i s = .next t) (hi : i ≠ .hlt) :
    t.halted = s.halted ∧ t.hookCalls = s.hookCalls := by
  cases completes_of_exec h with
  | hlt => exact absurd rfl hi
  | _ => simp

theorem exec_halted_iff {i : Instr} {s t : State} (h : exec i s = .next t) :
    t.halted = true ↔ s.halted = true ∨ i = .hlt := by
  by_cases hi : i = .hlt
  · subst hi
    cases h
    simp [callOnHalt_eq]
  · simp [(exec_halt_frame h hi).1, hi]

theorem exec_opsize_frame {i : Instr} {s t : State} (h : exec i s = .next t) (hi : i ≠ .opsize) :
    t.opsize = s.opsize := by
  cases completes_of_exec h with
  | override p =>
    cases p with
    | opsize => exact absurd rfl hi
    | adsize => rfl
  | _ => simp

theorem exec_addrsize_frame {i : Instr} {s t : State} (h : exec i s = .next t) (hi : i ≠ .adsize) :
    t.addrsize = s.addrsize := by
  cases completes_of_exec h with
  | override p =>
    cases p with
    | opsize => rfl
    | adsize => exact absurd rfl hi
  | _ => simp

theorem exec_ip_frame {i : Instr} {s t : State} (h : exec i s = .next t)
    (hjmp : ∀ rel : Word, i ≠ .jmp rel) (hcall : ∀ rel : Word, i ≠ .call rel) (hret : i ≠ .ret) :
    t.ip = s.ip := by
  cases completes_of_exec h with
  | jmp rel => exact absurd rfl (hjmp rel)
  | call rel _ => exact absurd rfl (hcall rel)
  | ret v _ => exact absurd rfl hret
  | _ => simp

/-- Settles O35, one frame lemma per piece of control state. -/
theorem controlStateWriters : Obligations.ControlStateWriters := by
  unfold Obligations.ControlStateWriters
  intro i s t h
  obtain ⟨hparams, hhooks, hrunning, _⟩ := exec_control i s t h
  exact ⟨hrunning, hhooks, hparams, exec_halted_iff h, exec_opsize_frame h, exec_addrsize_frame h,
    fun hi => (exec_halt_frame h hi).2, exec_ip_frame h⟩

end Sys2Proof.Machine

/-! SUPPORT. The invariant along executions, steps, runs and host actions (R48, R60, R268). -/

namespace Sys2Proof.Machine

/-- If `s` meets the invariant, so does `t`, with the same capacity and the same parameters. Stated
as a relation of two states, it chains along a step and along a run. -/
def InvKept (s t : State) : Prop :=
  s.Inv → t.Inv ∧ t.mem.size = s.mem.size ∧ t.params = s.params

theorem InvKept.trans {s t u : State} (h : InvKept s t) (h' : InvKept t u) : InvKept s u := by
  intro hs
  obtain ⟨ht, hsize, hparams⟩ := h hs
  obtain ⟨hu, hsize', hparams'⟩ := h' ht
  exact ⟨hu, hsize'.trans hsize, hparams'.trans hparams⟩

/-- A change of Memory that keeps its canonical form and its capacity keeps the invariant. -/
theorem InvKept.of_mem {s t : State} (hmem : s.mem.wf → t.mem.wf ∧ t.mem.size = s.mem.size)
    (hparams : t.params = s.params) : InvKept s t := by
  intro ⟨hwf, hlegal⟩
  obtain ⟨hwf', hsize⟩ := hmem hwf
  exact ⟨⟨hwf', hparams ▸ hlegal⟩, hsize, hparams⟩

/-- The invariant reads Memory and the parameters alone. -/
theorem InvKept.of_frame {s t : State} (hmem : t.mem = s.mem) (hparams : t.params = s.params) :
    InvKept s t :=
  .of_mem (fun hwf => by rw [hmem]; exact ⟨hwf, rfl⟩) hparams

/-! ### Executions and steps -/

theorem invKept_of_exec_next {i : Instr} {s t : State} (h : exec i s = .next t) :
    InvKept s t := by
  obtain ⟨hparams, _⟩ := exec_control i s t h
  rcases exec_mem i s t h with hmem | ⟨v, hin, hmem⟩
  · exact .of_frame hmem hparams
  · refine .of_mem (fun hwf => ?_) hparams
    rw [hmem]
    exact ⟨Memory.putBytes_wf _ _ _ hwf hin, Memory.putBytes_size _ _ _⟩

theorem invKept_of_exec_raised {i : Instr} {s left : State} {f : Failure}
    (h : exec i s = .fault (.raised f left)) : InvKept s left := by
  obtain ⟨a, sp, hf⟩ := exec_fault i s _ h
  cases hf
  exact .of_frame rfl rfl

/-- A fetch moves only `ip` and the toggles (R142, R143). -/
theorem invKept_fetched (s : State) (ps : List Override) (v : Word) :
    InvKept s ((s.setIp v).flipToggles ps) :=
  .of_frame (by simp) (by simp)

theorem invKept_of_step_next {s t : State} (h : step s = .next t) : InvKept s t := by
  rcases step_cases s with ⟨_, hs⟩ | ⟨_, ⟨i, u, hf, hs⟩ | ⟨f, u, _, hs⟩ | ⟨_, hs⟩ | ⟨_, hs⟩⟩ <;>
    rw [hs] at h
  · cases h
    exact .of_frame rfl rfl
  · obtain ⟨ps, v, rfl⟩ := fetchInstr_ready s u i hf
    exact (invKept_fetched s ps v).trans (invKept_of_exec_next h)
  · cases h
  · cases h
  · cases h

theorem invKept_of_step_raised {s left : State} {f : Failure}
    (h : step s = .fault (.raised f left)) : InvKept s left := by
  rcases step_cases s with ⟨_, hs⟩ | ⟨_, ⟨i, u, hf, hs⟩ | ⟨f', u, hf, hs⟩ | ⟨_, hs⟩ | ⟨_, hs⟩⟩ <;>
    rw [hs] at h
  · cases h
  · obtain ⟨ps, v, rfl⟩ := fetchInstr_ready s u i hf
    exact (invKept_fetched s ps v).trans (invKept_of_exec_raised h)
  · cases h
    obtain ⟨ps, v, rfl⟩ := fetchInstr_failed s _ _ hf
    exact invKept_fetched s ps v
  · cases h
  · cases h

/-! ### `run` -/

theorem invKept_of_deliver {f : Failure} {s t : State} (h : (deliver f s).state? = some t) :
    InvKept s t := by
  cases hc : s.hooks.onError with
  | none =>
    rw [deliver_of_none f s hc] at h
    cases h
    exact .of_frame rfl rfl
  | some c =>
    rw [deliver_of_some f s c hc] at h
    cases h
    exact .of_frame rfl rfl

theorem invKept_of_runExit {count : Nat} {s t : State} (h : (runExit count s).state? = some t) :
    InvKept s t := by
  unfold runExit at h
  split at h
  · cases h
    exact .of_frame rfl rfl
  · exact invKept_of_deliver h

theorem invKept_of_runLoop {budget count : Nat} {s t : State}
    (h : (runLoop budget count s).state? = some t) : InvKept s t := by
  induction budget generalizing count s with
  | zero => exact invKept_of_runExit h
  | succ budget ih =>
    rw [runLoop] at h
    split at h
    · split at h
      next u hstep => exact (invKept_of_step_next hstep).trans (ih h)
      next f left hstep => exact (invKept_of_step_raised hstep).trans (invKept_of_deliver h)
      · cases h
      · cases h
    · exact invKept_of_runExit h

theorem invKept_of_run {maxSteps : Nat} {s t : State} (h : (run maxSteps s).state? = some t) :
    InvKept s t := by
  have hrunning : InvKept s (s.setRunning true) := .of_frame rfl rfl
  exact hrunning.trans (invKept_of_runLoop h)

/-! ### Host actions -/

theorem invKept_of_hostStep {s t : State} (h : (hostStep s).state? = some t) : InvKept s t := by
  unfold hostStep at h
  split at h
  next u hstep =>
    cases h
    exact invKept_of_step_next hstep
  next f left hstep =>
    cases h
    exact invKept_of_step_raised hstep
  · cases h
  · cases h

/-- A host write that succeeds puts in place what its access gives; one that fails changes nothing
(R62, R63). -/
theorem hostWrite_state {addr : Int} {width : Nat} {write : Nat → Except Failure Memory}
    {s t : State} (h : (hostWrite addr width write s).state? = some t) :
    t = s ∨ ∃ m : Memory, write addr.toNat = .ok m ∧ t = s.setMem m := by
  unfold hostWrite hostRead at h
  by_cases haddr : addr < 0
  · rw [if_pos haddr] at h
    cases h
    exact .inl rfl
  · rw [if_neg haddr] at h
    cases hm : write addr.toNat with
    | ok m =>
      rw [hm] at h
      cases h
      exact .inr ⟨m, rfl, rfl⟩
    | error f =>
      rw [hm] at h
      cases h
      exact .inl rfl

theorem invKept_of_hostWrite {addr : Int} {width : Nat} {write : Nat → Except Failure Memory}
    {s t : State}
    (hwrite : ∀ m : Memory, s.mem.wf → write addr.toNat = .ok m → m.wf ∧ m.size = s.mem.size)
    (h : (hostWrite addr width write s).state? = some t) : InvKept s t := by
  rcases hostWrite_state h with rfl | ⟨m, hm, rfl⟩
  · exact .of_frame rfl rfl
  · exact .of_mem (fun hwf => hwrite m hwf hm) rfl

/-- Settles O38: a step and a run keep the invariant step by step, a write of Memory keeps its
canonical form, and every other action touches neither Memory nor the parameters. -/
theorem hostActionKeepsInvariant : Obligations.HostActionKeepsInvariant := by
  unfold Obligations.HostActionKeepsInvariant
  intro a s t hs h
  suffices hkept : InvKept s t from hkept hs
  cases a with
  | step => exact invKept_of_hostStep h
  | run maxSteps => exact invKept_of_run h
  | write8 addr v => exact invKept_of_hostWrite (fun m => s.mem.write8_wf m _ _) h
  | write16 addr v => exact invKept_of_hostWrite (fun m => s.mem.write16_wf m _ _) h
  | write32 addr v => exact invKept_of_hostWrite (fun m => s.mem.write32_wf m _ _) h
  | _ =>
    cases h
    exact .of_frame rfl rfl

end Sys2Proof.Machine

/-! SUPPORT. The sub-width register views, bit by bit (R23 to R26). -/

namespace Sys2Proof.Machine

/-! ### Reads -/

theorem State.readReg16_getLsbD (s : State) (r : Reg) (k : Nat) (hk : k < 16) :
    (s.readReg16 r).getLsbD k = (s.readReg r).getLsbD k := by
  simp [State.readReg16, hk]

theorem State.readRegLow8_getLsbD (s : State) (r : Reg) (k : Nat) (hk : k < 8) :
    (s.readRegLow8 r).getLsbD k = (s.readReg r).getLsbD k := by
  simp [State.readRegLow8, hk]

theorem State.readRegHigh8_getLsbD (s : State) (r : Reg) (k : Nat) (hk : k < 8) :
    (s.readRegHigh8 r).getLsbD k = (s.readReg r).getLsbD (k + 8) := by
  simp [State.readRegHigh8, hk, Nat.add_comm]

/-! ### Writes, seen through the 32-bit register -/

theorem State.readReg_writeReg16_getLsbD (s : State) (r : Reg) (v : Half) (k : Nat) (hk : k < 32) :
    ((s.writeReg16 r v).readReg r).getLsbD k
      = if k < 16 then v.getLsbD k else (s.readReg r).getLsbD k := by
  rw [State.writeReg16, State.readReg_writeReg_same, BitVec.getLsbD_append]
  split
  · rfl
  · rw [BitVec.getLsbD_extractLsb', decide_eq_true (by omega : k - 16 < 16), Bool.true_and,
      Nat.add_sub_cancel' (by omega)]

theorem State.readReg_writeRegLow8_getLsbD (s : State) (r : Reg) (v : Byte) (k : Nat)
    (hk : k < 32) :
    ((s.writeRegLow8 r v).readReg r).getLsbD k
      = if k < 8 then v.getLsbD k else (s.readReg r).getLsbD k := by
  rw [State.writeRegLow8, State.readReg_writeReg_same, BitVec.getLsbD_append]
  split
  · rfl
  · rw [BitVec.getLsbD_extractLsb', decide_eq_true (by omega : k - 8 < 24), Bool.true_and,
      Nat.add_sub_cancel' (by omega)]

theorem State.readReg_writeRegHigh8_getLsbD (s : State) (r : Reg) (v : Byte) (k : Nat)
    (hk : k < 32) :
    ((s.writeRegHigh8 r v).readReg r).getLsbD k
      = if 8 ≤ k ∧ k < 16 then v.getLsbD (k - 8) else (s.readReg r).getLsbD k := by
  rw [State.writeRegHigh8, State.readReg_writeReg_same]
  simp only [BitVec.getLsbD_append, BitVec.getLsbD_extractLsb']
  rcases (by omega : k < 8 ∨ (8 ≤ k ∧ k < 16) ∨ 16 ≤ k) with h | h | h
  · have hout : ¬ (8 ≤ k ∧ k < 16) := by omega
    simp [h, hout]
  · have hlow : ¬ k < 8 := by omega
    have hbyte : k - 8 < 8 := by omega
    simp [h, hlow, hbyte]
  · have hlow : ¬ k < 8 := by omega
    have hbyte : ¬ k - 8 < 8 := by omega
    have hout : ¬ (8 ≤ k ∧ k < 16) := by omega
    have htop : k - 8 - 8 < 16 := by omega
    have hplace : 16 + (k - 8 - 8) = k := by omega
    simp [hlow, hbyte, hout, htop, hplace]

/-! ### Writes, read back through the same view -/

theorem State.readReg16_writeReg16 (s : State) (r : Reg) (v : Half) :
    (s.writeReg16 r v).readReg16 r = v := by
  apply BitVec.eq_of_getLsbD_eq
  intro k hk
  rw [State.readReg16_getLsbD _ r k hk, State.readReg_writeReg16_getLsbD s r v k (by omega),
    if_pos hk]

theorem State.readRegLow8_writeRegLow8 (s : State) (r : Reg) (v : Byte) :
    (s.writeRegLow8 r v).readRegLow8 r = v := by
  apply BitVec.eq_of_getLsbD_eq
  intro k hk
  rw [State.readRegLow8_getLsbD _ r k hk, State.readReg_writeRegLow8_getLsbD s r v k (by omega),
    if_pos hk]

theorem State.readRegHigh8_writeRegHigh8 (s : State) (r : Reg) (v : Byte) :
    (s.writeRegHigh8 r v).readRegHigh8 r = v := by
  apply BitVec.eq_of_getLsbD_eq
  intro k hk
  rw [State.readRegHigh8_getLsbD _ r k hk,
    State.readReg_writeRegHigh8_getLsbD s r v (k + 8) (by omega), if_pos (by omega),
    Nat.add_sub_cancel]

/-- Settles O49, from the bits of each view's read and of each view's write. -/
theorem subWidthViewsAlias : Obligations.SubWidthViewsAlias := by
  unfold Obligations.SubWidthViewsAlias
  intro s r v v16 v8 k hk
  have hv := s.readReg_writeReg_same r v
  refine ⟨s.readReg_writeReg16_getLsbD r v16 k hk, s.readReg_writeRegLow8_getLsbD r v8 k hk,
    s.readReg_writeRegHigh8_getLsbD r v8 k hk, writeReg_frame s r _, writeReg_frame s r _,
    writeReg_frame s r _, s.readReg16_getLsbD r k,
    fun h => ⟨s.readRegLow8_getLsbD r k h, s.readRegHigh8_getLsbD r k h⟩, fun h => ?_,
    fun h => ⟨?_, ?_⟩, s.readReg16_writeReg16 r v16, s.readRegLow8_writeRegLow8 r v8,
    s.readRegHigh8_writeRegHigh8 r v8⟩
  · rw [State.readReg16_getLsbD _ r k h, hv]
  · rw [State.readRegLow8_getLsbD _ r k h, hv]
  · rw [State.readRegHigh8_getLsbD _ r k h, hv]

end Sys2Proof.Machine

/-! SUPPORT. The packed flags word and the zero/sign setters (R32 to R37). -/

namespace Sys2Proof.Machine

/-! ### The packed word -/

theorem Flags.pack_getLsbD (f : Flags) (k : Nat) (hk : k < 32) :
    f.pack.getLsbD k = (decide (k = 0) && f.carry || decide (k = 2) && f.parity
      || decide (k = 4) && f.adjust || decide (k = 6) && f.zero || decide (k = 7) && f.sign
      || decide (k = 8) && f.trap || decide (k = 9) && f.interruptEnable
      || decide (k = 10) && f.direction || decide (k = 11) && f.overflow) := by
  rw [Flags.pack_eq]
  simp only [BitVec.getLsbD_or, flagBit_getLsbD _ _ k hk]

theorem Flags.pack_getLsbD_unnamed (f : Flags) (k : Nat) (h : k = 1 ∨ k = 3 ∨ k = 5 ∨ 12 ≤ k) :
    f.pack.getLsbD k = false := by
  by_cases hk : k < 32
  · have hunnamed : k ≠ 0 ∧ k ≠ 2 ∧ k ≠ 4 ∧ k ≠ 6 ∧ k ≠ 7 ∧ k ≠ 8 ∧ k ≠ 9 ∧ k ≠ 10 ∧ k ≠ 11 := by
      omega
    rw [f.pack_getLsbD k hk]
    simp [hunnamed]
  · exact BitVec.getLsbD_of_ge _ _ (by omega)

theorem Flags.unpack_pack (f : Flags) : Flags.unpack f.pack = f := by
  simp [Flags.unpack, Flags.pack_getLsbD, -BitVec.getLsbD_eq_getElem]

theorem Flags.pack_unpack (w : Word) : (Flags.unpack w).pack = w &&& 0x0FD5 := by
  apply BitVec.eq_of_getLsbD_eq
  intro k hk
  rw [Flags.pack_getLsbD _ k hk, BitVec.getLsbD_and]
  interval_cases k <;> simp [Flags.unpack]

/-- Settles O50. `unpack` reads each flag at its own bit, so that unpacking loses nothing says where
each of the nine stands. -/
theorem packedFlagsRoundTrip : Obligations.PackedFlagsRoundTrip := by
  unfold Obligations.PackedFlagsRoundTrip
  refine ⟨fun f => ?_, Flags.pack_unpack⟩
  have h := f.unpack_pack
  exact ⟨h, congrArg Flags.carry h, congrArg Flags.parity h, congrArg Flags.adjust h,
    congrArg Flags.zero h, congrArg Flags.sign h, congrArg Flags.trap h,
    congrArg Flags.interruptEnable h, congrArg Flags.direction h, congrArg Flags.overflow h,
    f.pack_getLsbD_unnamed⟩

/-! ### The zero/sign setters, at any width -/

/-- The number a word of `w` bits holds of an integer is the integer modulo `2^w`. -/
theorem natCast_toNat_ofInt (w : Nat) (v : Int) :
    ((BitVec.ofInt w v).toNat : Int) = v % 2 ^ w := by
  rw [BitVec.toNat_ofInt, Int.toNat_of_nonneg (Int.emod_nonneg v (by positivity))]
  push_cast
  rfl

theorem ofInt_beq_zero_iff (w : Nat) (v : Int) :
    (BitVec.ofInt w v == 0) = true ↔ v % 2 ^ w = 0 := by
  rw [beq_iff_eq, ← natCast_toNat_ofInt, Int.natCast_eq_zero]
  exact BitVec.toNat_inj.symm

theorem ofInt_top_bit_iff (w : Nat) (v : Int) :
    (BitVec.ofInt (w + 1) v).getLsbD w = true ↔ 2 ^ w ≤ v % 2 ^ (w + 1) := by
  have hmsb : (BitVec.ofInt (w + 1) v).getLsbD w = (BitVec.ofInt (w + 1) v).msb := by
    rw [BitVec.msb_eq_getLsbD_last, Nat.add_sub_cancel]
  rw [hmsb, BitVec.msb_eq_decide, decide_eq_true_iff, Nat.add_sub_cancel, ← natCast_toNat_ofInt]
  norm_cast

/-- Settles O51: the two facts about a narrowed integer at widths 32 and 8. -/
theorem zeroSignSetters : Obligations.ZeroSignSetters := by
  unfold Obligations.ZeroSignSetters
  intro f v
  exact ⟨ofInt_beq_zero_iff 32 v, ofInt_top_bit_iff 31 v, rfl, ofInt_beq_zero_iff 8 v,
    ofInt_top_bit_iff 7 v, rfl⟩

end Sys2Proof.Machine

/-! SUPPORT. The created core, and code placed at `ip` (R47, R250, R267). -/

namespace Sys2Proof.Machine

theorem create_inv (params : Config.Params) (n : Nat) (hl : params.opcodes.legal)
    (hn : n ≤ 2 ^ 32) : (State.create params n).Inv :=
  ⟨⟨List.Pairwise.nil, by simp [State.create], hn⟩, hl⟩

/-- Code written where it fits stands at `ip` once `ip` is set to it. -/
theorem codeAtIp_putBytes (s : State) (a : Word) (code : List Byte) (hn : s.mem.size ≤ 2 ^ 32)
    (hfit : a.toNat + code.length ≤ s.mem.size) :
    ((s.setMem (s.mem.putBytes a.toNat code)).setIp a).codeAtIp code := by
  intro k hk
  simp only [State.setIp_ip, State.setIp_mem, State.setMem_mem, Memory.putBytes_size]
  refine ⟨by omega, by omega, ?_⟩
  rw [Memory.byteAt_putBytes, if_pos (by omega)]
  simp [hk]

/-- A core that is neither halted nor running becomes a legal launch state by placing code. -/
theorem launchable_putBytes (s : State) (a : Word) (code : List Byte) (hs : s.Inv)
    (hhalted : s.halted = false) (hrunning : s.running = false) (hcode : code ≠ [])
    (hfit : a.toNat + code.length ≤ s.mem.size) :
    ((s.setMem (s.mem.putBytes a.toNat code)).setIp a).launchable code := by
  obtain ⟨hwf, hlegal⟩ := hs
  have ⟨_, _, hsize⟩ := hwf
  exact ⟨hhalted, hrunning, ⟨Memory.putBytes_wf _ _ _ hwf hfit, hlegal⟩, hcode,
    codeAtIp_putBytes s a code hsize hfit⟩

/-- Settles O37: the fields are those `State.create` writes, and code is placed by
`launchable_putBytes`. -/
theorem createdCoreIsLaunchable : Obligations.CreatedCoreIsLaunchable := by
  unfold Obligations.CreatedCoreIsLaunchable
  rintro params n s hl hn rfl
  have hinv := create_inv params n hl hn
  refine ⟨hinv, ⟨Nat.zero_le 1, fun _ => rfl⟩, fun r => ?_, rfl, rfl, rfl, rfl, rfl, rfl, rfl, rfl,
    rfl, rfl, fun _ => rfl, fun a code hcode hfit => ?_⟩
  · cases r <;> rfl
  · exact launchable_putBytes _ a code hinv rfl rfl hcode hfit

end Sys2Proof.Machine

/-! SUPPORT. What steps do to Memory, and where a push succeeds (R60, R62, R74, R198, R271). -/

namespace Sys2Proof.Machine

/-- Settles O36: a step is a fetch, which moves only `ip` and the toggles, with an execution
after it, and both keep the invariant whether the step completes or fails. -/
theorem stepKeepsInvariant : Obligations.StepKeepsInvariant := by
  unfold Obligations.StepKeepsInvariant
  intro s hs
  exact ⟨fun _ h => invKept_of_step_next h hs, fun _ _ h => invKept_of_step_raised h hs⟩

/-! ### Where a push succeeds -/

theorem exists_exec_push_iff (r : Reg) (s : State) :
    (∃ t : State, exec (Instr.push r) s = .next t) ↔ s.pushPasses := by
  rw [exec_push, pushReg_eq]
  by_cases h : s.pushPasses <;> simp [h]

/-- A push with room for so many words leaves room for one less (R267). -/
theorem roomFor_of_exec_push {r : Reg} {s t : State} {words : Nat} (hroom : s.roomFor (words + 1))
    (h : exec (Instr.push r) s = .next t) : t.roomFor words := by
  rw [exec_push, pushReg_eq] at h
  split at h <;> cases h
  obtain ⟨hlow, hhigh⟩ := hroom
  simp only [State.roomFor, State.readReg_setMem, State.readReg_writeReg_same, toNat_pushSlot,
    State.setMem_mem, Memory.putBytes_size]
  omega

/-- Settles O29: a push completes where its slot passes, and `pushPasses_iff_room` and
`pushPasses_at_top` say where that is on either side of `N = 2^32`. -/
theorem pushSucceedsIffStackInside : Obligations.PushSucceedsIffStackInside := by
  unfold Obligations.PushSucceedsIffStackInside
  intro r s
  have hpush := exists_exec_push_iff r s
  refine ⟨hpush, fun hsize => hpush.trans (pushPasses_iff_room s hsize), fun hsize => ?_,
    fun words hroom => ?_⟩
  · rw [hpush, pushPasses_at_top s hsize]
    exact or_congr_right (BitVec.toNat_inj (y := 0))
  · have hone : s.roomFor 1 := by
      obtain ⟨hlow, hhigh⟩ := hroom
      exact ⟨by omega, hhigh⟩
    obtain ⟨t, ht⟩ := hpush.2 (pushPasses_of_room s hone)
    exact ⟨t, ht, roomFor_of_exec_push hroom ht⟩

/-! ### Which instructions store (R74, R198) -/

theorem sameMemory_of_mem_eq {s t : State} (h : t.mem = s.mem) : sameMemory s t := by
  rw [sameMemory, h]
  exact ⟨rfl, fun _ => rfl⟩

theorem sameMemoryOutside_of_putBytes {s t : State} {a width : Nat} {vs : List Byte}
    (hlen : vs.length = width) (h : t.mem = s.mem.putBytes a vs) :
    sameMemoryOutside a width s t := by
  subst hlen
  rw [sameMemoryOutside, h]
  exact ⟨s.mem.putBytes_size a vs, fun x => s.mem.byteAt_putBytes_outside a x vs⟩

theorem exec_mem_of_ne_store {i : Instr} {s t : State} (h : exec i s = .next t)
    (hpush : ∀ r : Reg, i ≠ Instr.push r) (hcall : ∀ rel : Word, i ≠ .call rel) :
    t.mem = s.mem := by
  cases completes_of_exec h with
  | push r _ => exact absurd rfl (hpush r)
  | call rel _ => exact absurd rfl (hcall rel)
  | _ => simp

/-- Settles O33: an execution leaves Memory as it is or stores one word at the slot, and only the
rows of PUSH and CALL do the latter. -/
theorem onlyPushAndCallStore : Obligations.OnlyPushAndCallStore := by
  unfold Obligations.OnlyPushAndCallStore
  intro i s t h
  refine ⟨?_, fun hpush hcall => sameMemory_of_mem_eq (exec_mem_of_ne_store h hpush hcall)⟩
  rcases exec_mem i s t h with hmem | ⟨v, _, hmem⟩
  · obtain ⟨hsize, hbytes⟩ := sameMemory_of_mem_eq hmem
    exact ⟨hsize, fun a _ => hbytes a⟩
  · exact sameMemoryOutside_of_putBytes (bytes32_length v) hmem

end Sys2Proof.Machine

/-! SUPPORT. Memory's accesses: inside and outside `[0, N)`, byte by byte, and after one another
(R62 to R69, R79). -/

namespace Sys2Proof.Machine

/-! ### Accesses inside Memory -/

theorem Memory.read8_of_inside (m : Memory) {a : Nat} (h : a + 1 ≤ m.size) :
    m.read8 a = .ok (m.byteAt a) :=
  (m.access_ok_iff a 1 _ _).2 ⟨h, rfl⟩

theorem Memory.write8_of_inside (m : Memory) {a : Nat} (v : Byte) (h : a + 1 ≤ m.size) :
    m.write8 a v = .ok (m.putByte a v) :=
  (m.access_ok_iff a 1 _ _).2 ⟨h, rfl⟩

/-- Settles O45: inside Memory each access has the value its definition names, and the bytes of a
wider one are those of the byte accesses. -/
theorem multiByteAccessIsLittleEndian : Obligations.MultiByteAccessIsLittleEndian := by
  unfold Obligations.MultiByteAccessIsLittleEndian
  intro m a
  have hbyte {width : Nat} (h : a + width ≤ m.size) (k : Nat) (hk : k < width) :
      a + k + 1 ≤ m.size := by omega
  refine ⟨fun h => ?_, fun h => ?_, fun v h => ?_, fun v h => ?_⟩
  · exact ⟨_, _, m.read8_of_inside (hbyte h 0 (by decide)),
      m.read8_of_inside (hbyte h 1 (by decide)), (m.access_ok_iff a 2 _ _).2 ⟨h, rfl⟩⟩
  · exact ⟨_, _, _, _, m.read8_of_inside (hbyte h 0 (by decide)),
      m.read8_of_inside (hbyte h 1 (by decide)), m.read8_of_inside (hbyte h 2 (by decide)),
      m.read8_of_inside (hbyte h 3 (by decide)), (m.access_ok_iff a 4 _ _).2 ⟨h, rfl⟩⟩
  · exact ⟨_, _, m.write8_of_inside _ (hbyte h 0 (by decide)),
      Memory.write8_of_inside _ _ (hbyte h 1 (by decide)), (m.access_ok_iff a 2 _ _).2 ⟨h, rfl⟩⟩
  · exact ⟨_, _, _, _, m.write8_of_inside _ (hbyte h 0 (by decide)),
      Memory.write8_of_inside _ _ (hbyte h 1 (by decide)),
      Memory.write8_of_inside _ _ (hbyte h 2 (by decide)),
      Memory.write8_of_inside _ _ (hbyte h 3 (by decide)), (m.access_ok_iff a 4 _ _).2 ⟨h, rfl⟩⟩

/-! ### Accesses that leave Memory -/

/-- Settles O46: every access is `Memory.access`, whose failure `access_error_iff` gives. -/
theorem accessFailsExactlyOutsideMemory : Obligations.AccessFailsExactlyOutsideMemory := by
  unfold Obligations.AccessFailsExactlyOutsideMemory
  intro m a f v8 v16 v32
  refine ⟨m.access_error_iff a 1 _ f, m.access_error_iff a 2 _ f, m.access_error_iff a 4 _ f,
    m.access_error_iff a 1 _ f, m.access_error_iff a 2 _ f, m.access_error_iff a 4 _ f, ?_⟩
  intro hsize htop
  have hout : ¬ a + 4 ≤ m.size := by omega
  exact ⟨(m.access_error_iff a 4 _ _).2 ⟨hout, rfl⟩, (m.access_error_iff a 4 _ _).2 ⟨hout, rfl⟩⟩

/-! ### Reads after a write (R67) -/

/-- The two bytes in the middle of a word just written. -/
theorem Memory.read16_putBytes32_middle (m : Memory) (a : Nat) (v : Word) (h : a + 4 ≤ m.size) :
    (m.putBytes a (bytes32 v)).read16 (a + 1) = .ok (v.extractLsb' 8 16) := by
  have hlow := m.byteAt_putBytes32 a 1 v (by omega)
  have hhigh := m.byteAt_putBytes32 a 2 v (by omega)
  rw [Memory.read16, Memory.access_ok_iff, Memory.putBytes_size, hlow, hhigh]
  exact ⟨by omega, BitVec.extractLsb'_append_extractLsb'_eq_extractLsb' rfl⟩

/-- Settles O48, from what the bytes of a 32-bit write read as. -/
theorem readSeesLastWrite : Obligations.ReadSeesLastWrite := by
  unfold Obligations.ReadSeesLastWrite
  intro m m' a v hw
  obtain ⟨h, rfl⟩ := (m.access_ok_iff a 4 _ m').1 hw
  exact ⟨m.read32_putBytes32 a v h, m.read16_putBytes32_middle a v h, m.putBytes_size a _,
    putBytes32_outside m a v⟩

/-! ### The host's accesses (R48, R62, R63, R65) -/

/-- An access of the host's gives its value inside Memory and `OutOfBounds` elsewhere, below
address 0 too. -/
theorem hostRead_access {α : Type} (s : State) (addr : Int) (width : Nat) (value : Nat → α) :
    hostRead addr width (fun a => s.mem.access a width (value a))
      = if s.spans addr width then .ok (value addr.toNat)
        else .error (.outOfBounds addr width) := by
  unfold hostRead
  by_cases hneg : addr < 0
  · rw [if_pos hneg, if_neg (by omega)]
  · obtain ⟨a, rfl⟩ := Int.eq_ofNat_of_zero_le (not_lt.1 hneg)
    have hspans : s.spans a width ↔ a + width ≤ s.mem.size := by
      simp only [State.spans]
      omega
    simp only [if_neg hneg, Int.toNat_natCast, Memory.access_eq, hspans]

theorem exists_hostRead_ok_iff {α : Type} (s : State) (addr : Int) (width : Nat) (value : Nat → α) :
    (∃ x : α, hostRead addr width (fun a => s.mem.access a width (value a)) = .ok x)
      ↔ s.spans addr width := by
  rw [hostRead_access]
  by_cases h : s.spans addr width
  · rw [if_pos h]
    exact iff_of_true ⟨_, rfl⟩ h
  · rw [if_neg h]
    exact iff_of_false (by simp) h

/-- The bytes of a number narrowed to a word are bytes of the number itself. -/
theorem extractLsb'_ofNat {w start len : Nat} (h : start + len ≤ w) (v : Nat) :
    (BitVec.ofNat w v).extractLsb' start len = BitVec.ofNat len (v / 2 ^ start) := by
  refine BitVec.eq_of_getLsbD_eq fun i hi => ?_
  have hin : start + i < w := by omega
  simp only [BitVec.getLsbD_extractLsb', BitVec.getLsbD_ofNat, Nat.testBit_div_two_pow, hi, hin,
    decide_true, Bool.true_and, Nat.add_comm]

/-- The bytes a number is written as, lowest address first (R65). -/
def numberBytes (v width : Nat) : List Byte :=
  (List.range width).map fun k => BitVec.ofNat 8 (v / 2 ^ (8 * k))

@[simp] theorem numberBytes_length (v width : Nat) : (numberBytes v width).length = width := by
  simp [numberBytes]

theorem numberBytes_one (v : Nat) : numberBytes v 1 = [BitVec.ofNat 8 v] := by
  simp [numberBytes]

theorem bytes16_ofNat (v : Nat) : bytes16 (BitVec.ofNat 16 v) = numberBytes v 2 := by
  simp [bytes16, numberBytes, extractLsb'_ofNat, List.range_succ]

theorem bytes32_ofNat (v : Nat) : bytes32 (BitVec.ofNat 32 v) = numberBytes v 4 := by
  simp [bytes32, numberBytes, extractLsb'_ofNat, List.range_succ]

theorem Memory.byteAt_putBytes_numberBytes (m : Memory) (a k v width : Nat) (hk : k < width) :
    (m.putBytes a (numberBytes v width)).byteAt (a + k) = BitVec.ofNat 8 (v / 2 ^ (8 * k)) := by
  have hin : a ≤ a + k ∧ a + k < a + (numberBytes v width).length := by
    rw [numberBytes_length]
    omega
  rw [Memory.byteAt_putBytes, if_pos hin, Nat.add_sub_cancel_left]
  simp [numberBytes, hk]

/-- A host action that writes a number's bytes by one access is all or nothing, at every width. -/
theorem allOrNothing_of_hostWrite {act : HostAction} {addr : Int} {width v : Nat} {s : State}
    (h : hostAct act s = hostWrite addr width
      (fun a => s.mem.access a width (s.mem.putBytes a (numberBytes v width))) s) :
    allOrNothing act addr width v s := by
  rw [hostWrite, hostRead_access] at h
  refine ⟨fun hin => ?_, fun hout => ?_⟩
  · rw [if_pos hin] at h
    exact ⟨_, h, fun k hk => s.mem.byteAt_putBytes_numberBytes _ k v width hk,
      sameMemoryOutside_of_putBytes (numberBytes_length v width) rfl⟩
  · rw [if_neg hout] at h
    exact h

/-- Settles O47: every host access is one `Memory.access` behind the sign test, and the bytes it
writes are those of the number. -/
theorem hostAccessIsAllOrNothing : Obligations.HostAccessIsAllOrNothing := by
  unfold Obligations.HostAccessIsAllOrNothing
  intro addr v s
  refine ⟨exists_hostRead_ok_iff s addr 1 _, exists_hostRead_ok_iff s addr 2 _,
    exists_hostRead_ok_iff s addr 4 _, allOrNothing_of_hostWrite ?_, allOrNothing_of_hostWrite ?_,
    allOrNothing_of_hostWrite ?_⟩
  · simp only [hostAct, Memory.write8, numberBytes_one]
  · simp only [hostAct, Memory.write16, bytes16_ofNat]
  · simp only [hostAct, Memory.write32, bytes32_ofNat]

end Sys2Proof.Machine

/-! SUPPORT. Decoding and encoding of a whole step are inverse to each other, which bytes are refused,
and how many bytes an opcode takes (R90 to R95, R99 to R103, R106). -/

namespace Sys2Proof

/-! ### One turn of `decodeStep` (R102) -/

theorem decodeStep_of_prefix {o : Config.Opcodes} {b : Byte} {p : Override} {bs rest : List Byte}
    {c : StepCode} (hp : o.prefixOf b = some p) (hd : decodeStep o bs = .ok (c, rest)) :
    decodeStep o (b :: bs) = .ok ({ c with prefixes := p :: c.prefixes }, rest) := by
  simp [decodeStep, hp, hd]

theorem decodeStep_of_opcode {o : Config.Opcodes} {b : Byte} {bs rest : List Byte} {i : Instr}
    (hp : o.prefixOf b = none) (hd : decode o (b :: bs) = .ok (i, rest)) :
    decodeStep o (b :: bs) = .ok ({ prefixes := [], core := i }, rest) := by
  simp [decodeStep, hp, hd]

/-! ### The opcode byte of an encoding -/

/-- A row's encoding begins with its byte, whatever its format (R90). -/
theorem encode_instr_eq_cons (o : Config.Opcodes) (k : Opcode) (v : Word) :
    ∃ operand : List Byte, encode o (k.instr v) = o.byteOf k :: operand := by
  cases hk : k.hasImm32 with
  | true => exact ⟨_, encode_instr_operand o k v hk⟩
  | false => exact ⟨_, encode_instr_plain o k v hk⟩

/-- The rows of overrides are those whose instructions are overrides. -/
theorem Opcode.override?_eq_none_iff (k : Opcode) (v : Word) :
    k.override? = none ↔ (k.instr v).isPrefix = false := by
  rw [k.instr_isPrefix v, Option.isSome_eq_false_iff, Option.isNone_iff_eq_none]

/-- The loop over prefixes stops at the first byte of an instruction that is not itself an override
(R143). -/
theorem encode_eq_cons_of_not_prefix {o : Config.Opcodes} {i : Instr} (hl : o.legal)
    (hi : i.isPrefix = false) :
    ∃ (b : Byte) (operand : List Byte), encode o i = b :: operand ∧ o.prefixOf b = none := by
  obtain ⟨k, v, rfl⟩ := i.exists_opcode
  obtain ⟨operand, henc⟩ := encode_instr_eq_cons o k v
  exact ⟨_, operand, henc,
    prefixOf_of_row o _ k (rowOf_byteOf o k hl) ((k.override?_eq_none_iff v).2 hi)⟩

/-! ### The round trips -/

theorem StepCode.wf_iff (c : StepCode) : c.wf = true ↔ c.core.isPrefix = false := by
  simp [StepCode.wf]

/-- The opcode behind the prefixes decodes to the instruction it encodes. -/
theorem decodeStep_encode {o : Config.Opcodes} {i : Instr} (rest : List Byte) (hl : o.legal)
    (hi : i.isPrefix = false) :
    decodeStep o (encode o i ++ rest) = .ok ({ prefixes := [], core := i }, rest) := by
  have hdec := decode_encode o i rest hl
  obtain ⟨b, operand, henc, hb⟩ := encode_eq_cons_of_not_prefix hl hi
  rw [henc, List.cons_append] at hdec ⊢
  exact decodeStep_of_opcode hb hdec

/-- Settles O1, by induction on the prefixes. -/
theorem decodeOfEncodedStep : Obligations.DecodeOfEncodedStep := by
  unfold Obligations.DecodeOfEncodedStep
  rintro o ⟨prefixes, i⟩ rest hl hwf
  have hi : i.isPrefix = false := (StepCode.wf_iff _).1 hwf
  clear hwf
  induction prefixes with
  | nil => exact decodeStep_encode rest hl hi
  | cons p ps ih => exact decodeStep_of_prefix (prefixOf_byte o p hl) ih

/-- What decodes where the loop over prefixes stops is not itself an override (R143). -/
theorem isPrefix_of_decode {o : Config.Opcodes} {b : Byte} {bs rest : List Byte} {i : Instr}
    (hp : o.prefixOf b = none) (hd : decode o (b :: bs) = .ok (i, rest)) : i.isPrefix = false := by
  obtain ⟨k, hrow, hrest⟩ := decode_ok o b bs rest i hd
  have hk : k.override? = none := by simpa [Config.Opcodes.prefixOf, hrow] using hp
  have hinstr : ∃ v : Word, i = k.instr v := by
    obtain ⟨_, _, _, _, _, _, hi⟩ | ⟨_, _, hi⟩ := hrest <;> exact ⟨_, hi⟩
  obtain ⟨v, rfl⟩ := hinstr
  exact (k.override?_eq_none_iff v).1 hk

/-- Settles O2, by induction on the bytes: an override's byte is its encoding, and the first byte that
is none begins the opcode's. -/
theorem decodedBytesAreTheEncoding : Obligations.DecodedBytesAreTheEncoding := by
  unfold Obligations.DecodedBytesAreTheEncoding
  intro o bytes rest c h
  induction bytes generalizing c with
  | nil => cases h
  | cons b bs ih =>
    obtain ⟨p, c', hp, hd, rfl⟩ | ⟨hp, hd, hprefixes⟩ := decodeStep_ok o b bs rest c h
    · obtain ⟨hwf, hbs⟩ := ih c' hd
      have hb := byteOf_of_rowOf o b _ ((prefixOf_eq_some o b p).1 hp)
      exact ⟨hwf, by rw [hbs, ← hb]; rfl⟩
    · refine ⟨c.wf_iff.2 (isPrefix_of_decode hp hd), ?_⟩
      rw [encode_of_decode o _ rest c.core hd, encodeStep, hprefixes]
      rfl

/-! ### Unassigned bytes (R100, R103) -/

theorem decode_eq_unassigned_iff (o : Config.Opcodes) (b : Byte) (rest : List Byte) :
    decode o (b :: rest) = .error (.unassigned b) ↔ Machine.unassigned o b = true := by
  rw [← rowOf_eq_none]
  cases hr : o.rowOf b with
  | none => simp [decode, hr]
  | some k =>
    simp only [decode, hr, reduceCtorEq, iff_false]
    split <;> simp

/-- Settles O3: the refusal depends on the byte alone, and the 256 bytes are compared with R100's last
row. -/
theorem unassignedBytesRefused : Obligations.UnassignedBytesRefused := by
  unfold Obligations.UnassignedBytesRefused
  intro b
  refine ⟨fun o => ?_, byte_forall (fun b => _ = Machine.unassignedByDefault b) (by decide +kernel) b⟩
  simp only [decode_eq_unassigned_iff, forall_const]

/-! ### Lengths (R102) -/

/-- Settles O4: the row an opcode byte selects fixes the format, and `takesOperand` is its operand
test. -/
theorem opcodeAloneGivesLength : Obligations.OpcodeAloneGivesLength := by
  unfold Obligations.OpcodeAloneGivesLength
  intro o b rest rest' i hl h
  obtain ⟨k, hrow, hrest⟩ := decode_ok o b rest rest' i h
  rw [takesOperand_eq o b k hl hrow]
  obtain ⟨hk, i0, i1, i2, i3, rfl, _⟩ | ⟨hk, hrest, _⟩ := hrest
  · rw [hk]
    exact ⟨fun _ => ⟨[i0, i1, i2, i3], rfl, rfl⟩, nofun⟩
  · rw [hk]
    exact ⟨nofun, fun _ => hrest⟩

/-- Settles O5: each word is decoded by evaluation. -/
theorem sampleWordsDecode : Obligations.SampleWordsDecode := by
  unfold Obligations.SampleWordsDecode
  decide

end Sys2Proof

/-! SUPPORT. A step over code that stands in Memory as its encoding, and the assembler's displacement
(R110, R140 to R145, R180). -/

namespace Sys2Proof.Machine

/-! ### Code in Memory as a byte list -/

theorem Memory.bytesFrom_getElem (m : Memory) {a n k : Nat} (hk : k < (m.bytesFrom a n).length) :
    (m.bytesFrom a n)[k] = m.byteAt (a + k) := by
  induction n generalizing a k with
  | zero => cases hk
  | succ n ih =>
    cases k with
    | zero => rfl
    | succ k =>
      rw [show a + (k + 1) = a + 1 + k by omega]
      exact ih _

theorem State.bytesFrom_of_codeAtIp {s : State} {bytes : List Byte} (h : s.codeAtIp bytes) :
    s.mem.bytesFrom s.ip.toNat bytes.length = bytes := by
  refine List.ext_getElem (s.mem.bytesFrom_length _ _) fun k hk hk' => ?_
  rw [s.mem.bytesFrom_getElem hk, (h k hk').2.2]

/-- Code at `ip` lies inside Memory and below the top of the address space. -/
theorem State.codeAtIp_inside {s : State} {b : Byte} {bs : List Byte} (h : s.codeAtIp (b :: bs)) :
    s.ip.toNat + (b :: bs).length ≤ s.mem.size ∧ s.ip.toNat + (b :: bs).length ≤ 2 ^ 32 := by
  obtain ⟨hsize, htop, _⟩ := h bs.length (by simp)
  rw [List.length_cons]
  omega

/-- A step of a live core at the encoding of a step's instruction executes that instruction past its
bytes, with the toggles of its prefixes flipped (R140 to R145). -/
theorem step_of_encodeStep {s : State} {c : StepCode} (hl : s.params.opcodes.legal)
    (hlive : s.halted = false) (hwf : c.wf = true)
    (hcode : s.codeAtIp (encodeStep s.params.opcodes c))
    (hm : mayDispatch (s.flipToggles c.prefixes) = true) :
    step s = exec c.core (s.past (encodeStep s.params.opcodes c).length c.prefixes) := by
  have hdec := decodeOfEncodedStep s.params.opcodes c [] hl hwf
  rw [List.append_nil] at hdec
  obtain ⟨hsize, htop⟩ : s.ip.toNat + (encodeStep s.params.opcodes c).length ≤ s.mem.size
      ∧ s.ip.toNat + (encodeStep s.params.opcodes c).length ≤ 2 ^ 32 := by
    cases hbytes : encodeStep s.params.opcodes c with
    | nil => rw [hbytes] at hdec; cases hdec
    | cons b bs => exact State.codeAtIp_inside (hbytes ▸ hcode)
  rw [← State.bytesFrom_of_codeAtIp hcode] at hdec
  rw [step_of_live s hlive, stepLive, fetchInstr,
    fetchLoop_of_decode _ _ s c (by omega) hsize htop hdec hm]

/-! ### The assembled jump -/

theorem encodeStep_jmp_length (o : Config.Opcodes) (ps : List Override) (rel : Word) :
    (encodeStep o { prefixes := ps, core := .jmp rel }).length = ps.length + 5 := by
  simp [encodeStep, prefixBytes, encode]

/-- The displacement, added to the address past the prefixes and the five bytes, is the target
(R110). -/
theorem add_relTo (addr target : Word) (p : Nat) :
    addr + BitVec.ofNat 32 (p + 5) + relTo addr target p = target := by
  have hlen : BitVec.ofNat 32 (p + 5) = 5 + BitVec.ofNat 32 p := by
    rw [Nat.add_comm, BitVec.ofNat_add]
    rfl
  rw [hlen, relTo, ← BitVec.add_assoc, BitVec.add_comm, BitVec.sub_add_cancel]

/-- Settles O20: the step is the jump past its own bytes, and the formula takes it to the target. -/
theorem jumpReachesItsAssembledTarget : Obligations.JumpReachesItsAssembledTarget := by
  unfold Obligations.JumpReachesItsAssembledTarget
  rintro s prefixes target ⟨_, hl⟩ hlive hcode hm
  have hstep := step_of_encodeStep hl hlive rfl hcode hm
  rw [encodeStep_jmp_length] at hstep
  refine ⟨_, hstep, ?_⟩
  rw [State.setIp_ip, State.past_ip, add_relTo]

end Sys2Proof.Machine

/-! SUPPORT. The decoder primitives: fetch-and-advance, sign extension, ModRM and effective addresses
(R96, R120 to R130), and a step whose operand is missing (R123, R222). -/

namespace Sys2Proof.Machine

/-! ### Fetch-and-advance (R120 to R123) -/

theorem fetch8_of_read8 {s : State} {v : Byte} (h : s.mem.read8 s.ip.toNat = .ok v) :
    fetch8 s = .done v (s.setIp (s.ip + 1)) := by
  rw [fetch8, h]

theorem fetch16_of_read16 {s : State} {v : Half} (h : s.mem.read16 s.ip.toNat = .ok v) :
    fetch16 s = .done v (s.setIp (s.ip + 2)) := by
  rw [fetch16, h]

theorem fetch32_of_read32 {s : State} {v : Word} (h : s.mem.read32 s.ip.toNat = .ok v) :
    fetch32 s = .done v (s.setIp (s.ip + 4)) := by
  rw [fetch32, h]

/-- Settles O53: a fetch gives what its read gives, and outside Memory it takes the failing branch of
`fetch8_eq`, `fetch16_eq` and `fetch32_eq`. -/
theorem fetchReadsThenAdvances : Obligations.FetchReadsThenAdvances := by
  unfold Obligations.FetchReadsThenAdvances
  intro s
  refine ⟨fun _ => fetch8_of_read8, fun _ => fetch16_of_read16, fun _ => fetch32_of_read32,
    fun h => ?_, fun h => ?_, fun h => ?_⟩
  · rw [fetch8_eq, if_neg h]
  · rw [fetch16_eq, if_neg h]
  · rw [fetch32_eq, if_neg h]

theorem fetch8_eq_failed {s left : State} {f : Failure} (h : fetch8 s = .failed f left) :
    f = .outOfBounds s.ip.toNat 1 ∧ left = s := by
  rw [fetch8_eq] at h
  split at h
  · cases h
  · cases h
    exact ⟨rfl, rfl⟩

theorem fetch32_eq_failed {s left : State} {f : Failure} (h : fetch32 s = .failed f left) :
    f = .outOfBounds s.ip.toNat 4 ∧ left = s := by
  rw [fetch32_eq] at h
  split at h
  · cases h
  · cases h
    exact ⟨rfl, rfl⟩

/-! ### A step whose operand is missing (R123, R222) -/

theorem exists_row_of_takesOperand {o : Config.Opcodes} {b : Byte} (hl : o.legal)
    (h : takesOperand o b = true) : ∃ k : Opcode, o.rowOf b = some k ∧ k.hasImm32 = true := by
  obtain ⟨k, hk, hb⟩ := takesOperand_cases o b h
  exact ⟨k, (rowOf_eq_some o b k hl).2 hb, hk⟩

theorem step_of_fetch_failed {s left : State} {f : Failure} (hlive : s.halted = false)
    (h : fetchInstr s = .failed f left) : step s = .fault (.raised f left) := by
  rw [step_of_live s hlive, stepLive, h]
  rfl

/-- Settles O10: the opcode's row has an operand and is no prefix, so the fetch goes past the prefixes
to that row's operand fetch, which fails. -/
theorem operandFetchOutOfBoundsRaises : Obligations.OperandFetchOutOfBoundsRaises := by
  unfold Obligations.OperandFetchOutOfBoundsRaises
  rintro s prefixes b ⟨_, hl⟩ hlive hb hcode hm hout
  obtain ⟨k, hrow, hk⟩ := exists_row_of_takesOperand hl hb
  have hp := prefixOf_of_row _ b k hrow (k.override?_of_hasImm32 hk)
  apply step_of_fetch_failed hlive
  rw [fetchInstr_behind s prefixes b hl hcode hp]
  exact fetchOperand_of_outside b _ _ k (by rw [mayDispatch_past, hm]) (by rw [State.past_params, hrow])
    hk (by rwa [State.past_mem])

/-! ### Sign extension (R124) -/

/-- A set top bit adds the ones above it, `2^32 - 2^bits`; a clear one leaves the number. -/
theorem sext_eq_signExtend (value : Nat) {bits : Nat} (hle : bits ≤ 32) :
    sext value bits = (BitVec.ofNat bits value).signExtend 32 := by
  have hpow : 2 ^ bits ≤ 2 ^ 32 := Nat.pow_le_pow_right (by decide) hle
  have hlt : value % 2 ^ bits < 2 ^ bits := Nat.mod_lt _ (by positivity)
  have hmsb : (value % 2 ^ bits).testBit (bits - 1) = (BitVec.ofNat bits value).msb := by
    rw [BitVec.msb_eq_getLsbD_last, BitVec.getLsbD, BitVec.toNat_ofNat]
  apply BitVec.eq_of_toNat_eq
  rw [sext, hmsb, BitVec.toNat_signExtend, BitVec.toNat_setWidth, BitVec.toNat_ofNat]
  split
  · rw [BitVec.toNat_ofNat]
    omega
  · rw [BitVec.toNat_ofNat, Nat.add_zero]

theorem sext_toNat_byte (d : Byte) : sext d.toNat 8 = d.signExtend 32 := by
  rw [sext_eq_signExtend d.toNat (by decide), BitVec.ofNat_toNat, BitVec.setWidth_eq]

/-- Settles O54: inside 1 to 32 by `sext_eq_signExtend`, outside by the width's test. -/
theorem signExtendIsTwosComplement : Obligations.SignExtendIsTwosComplement := by
  unfold Obligations.SignExtendIsTwosComplement
  intro value bits
  refine ⟨fun hpos hle => ?_, fun h => ?_⟩
  · rw [signExtend, if_pos ⟨hpos, hle⟩, sext_eq_signExtend value hle]
  · rw [signExtend, if_neg (by omega)]

/-! ### ModRM (R96, R125) -/

/-- A sub-operation's value passed through a function; a failure stays as it is. -/
def Attempt.map {α β : Type} (g : α → β) : Attempt α → Attempt β
  | .done v s => .done (g v) s
  | .failed f left => .failed f left

theorem Attempt.map_eq_failed {α β : Type} {g : α → β} {a : Attempt α} {f : Failure} {left : State}
    (h : a.map g = .failed f left) : a = .failed f left := by
  cases a with
  | done v s => cases h
  | failed f' left' =>
    cases h
    rfl

theorem decodeModRM_eq_map (s : State) : decodeModRM s = (fetch8 s).map ModRM.ofByte := by
  unfold decodeModRM
  cases fetch8 s <;> rfl

theorem ModRM.ofByte_fields (b : Byte) :
    b.toNat = 64 * (ofByte b).mod.toNat + 8 * (ofByte b).reg.toNat + (ofByte b).rm.toNat := by
  have hb := b.isLt
  simp only [ofByte, BitVec.extractLsb'_toNat, Nat.shiftRight_eq_div_pow]
  omega

/-- Settles O57: the fetched byte is split by `ModRM.ofByte`, whose fields add up to it. -/
theorem modRMSplitsEveryByte : Obligations.ModRMSplitsEveryByte := by
  unfold Obligations.ModRMSplitsEveryByte
  intro s b h
  refine ⟨ModRM.ofByte b, ?_, ModRM.ofByte_fields b⟩
  rw [decodeModRM_eq_map, fetch8_of_read8 h, Attempt.map]

/-! ### Effective addresses (R126 to R130) -/

theorem unsupportedForm_iff (mod : BitVec 2) (rm : BitVec 3) :
    unsupportedForm mod rm = true ↔ mod = 3 ∨ rm = 4 := by
  simp [unsupportedForm]

theorem not_unsupportedForm {mod : BitVec 2} {rm : BitVec 3} (hmod : mod ≠ 3) (hrm : rm ≠ 4) :
    ¬ unsupportedForm mod rm = true :=
  mt (unsupportedForm_iff mod rm).1 (not_or.2 ⟨hmod, hrm⟩)

theorem effectiveAddress_of_unsupported {mod : BitVec 2} {rm : BitVec 3} (s : State)
    (h : mod = 3 ∨ rm = 4) :
    effectiveAddress mod rm s = .failed (.unsupportedAddressingMode mod rm) s := by
  rw [effectiveAddress, if_pos ((unsupportedForm_iff mod rm).2 h)]

theorem effectiveAddress_mod0 {rm : BitVec 3} (s : State) (hrm : rm ≠ 4) :
    effectiveAddress 0 rm s
      = if rm = 5 then fetch32 s else .done (s.readReg (Reg.ofBits rm)) s := by
  rw [effectiveAddress, if_neg (not_unsupportedForm (by decide) hrm), if_pos rfl]

theorem effectiveAddress_mod1 {rm : BitVec 3} (s : State) (hrm : rm ≠ 4) :
    effectiveAddress 1 rm s
      = (fetch8 s).map fun d => s.readReg (Reg.ofBits rm) + d.signExtend 32 := by
  rw [effectiveAddress, if_neg (not_unsupportedForm (by decide) hrm), if_neg (by decide), if_pos rfl]
  simp only [sext_toNat_byte]
  cases fetch8 s <;> rfl

theorem effectiveAddress_mod2 {rm : BitVec 3} (s : State) (hrm : rm ≠ 4) :
    effectiveAddress 2 rm s = (fetch32 s).map fun d => s.readReg (Reg.ofBits rm) + d := by
  rw [effectiveAddress, if_neg (not_unsupportedForm (by decide) hrm), if_neg (by decide),
    if_neg (by decide)]
  cases fetch32 s <;> rfl

/-- Settles O55, one equation of `effectiveAddress` per `mod`. -/
theorem effectiveAddressOfSupportedForms : Obligations.EffectiveAddressOfSupportedForms := by
  unfold Obligations.EffectiveAddressOfSupportedForms
  intro s rm hrm
  rw [effectiveAddress_mod0 s hrm, effectiveAddress_mod1 s hrm, effectiveAddress_mod2 s hrm]
  refine ⟨fun h5 => if_neg h5, fun h5 => if_pos h5, fun d t h => ?_, fun d t h => ?_,
    fun f t h => ?_, fun f t h => ?_⟩ <;> rw [h, Attempt.map]

/-- A form that passes the test of R130 fails only as its displacement's fetch does. -/
theorem effectiveAddress_eq_failed {mod : BitVec 2} {rm : BitVec 3} {s left : State} {f : Failure}
    (hform : ¬ (mod = 3 ∨ rm = 4)) (h : effectiveAddress mod rm s = .failed f left) :
    ∃ width : Nat, f = .outOfBounds s.ip.toNat width ∧ left = s := by
  obtain ⟨hmod, hrm⟩ := not_or.1 hform
  have hcases : ∀ m : BitVec 2, m = 0 ∨ m = 1 ∨ m = 2 ∨ m = 3 := by decide
  obtain rfl | rfl | rfl | rfl := hcases mod
  · rw [effectiveAddress_mod0 s hrm] at h
    split at h
    · exact ⟨4, fetch32_eq_failed h⟩
    · cases h
  · rw [effectiveAddress_mod1 s hrm] at h
    exact ⟨1, fetch8_eq_failed (Attempt.map_eq_failed h)⟩
  · rw [effectiveAddress_mod2 s hrm] at h
    exact ⟨4, fetch32_eq_failed (Attempt.map_eq_failed h)⟩
  · exact absurd rfl hmod

/-- Settles O56: the test of the forms comes first, and any other failure is a fetch's
`OutOfBounds`. -/
theorem unsupportedFormsRaise : Obligations.UnsupportedFormsRaise := by
  unfold Obligations.UnsupportedFormsRaise
  intro s mod rm
  refine ⟨effectiveAddress_of_unsupported s, fun left h => ?_⟩
  by_contra hform
  obtain ⟨width, hf, _⟩ := effectiveAddress_eq_failed hform h
  cases hf

end Sys2Proof.Machine

/-! SUPPORT. Simulations: a relation of states that agree on all a meaning reads, kept by every
update a meaning makes, is kept by executions, fetches, steps and sequences of steps (R140 to R145). -/

namespace Sys2Proof.Machine

/-- A relation of states that agree on everything a fetch or an instruction reads, and that every
update they make keeps. The toggles are read by the policy's test alone, and the record of hook
calls by nothing. -/
structure Simulation (R : State → State → Prop) : Prop where
  regs {s t : State} : R s t → t.regs = s.regs
  ip {s t : State} : R s t → t.ip = s.ip
  flags {s t : State} : R s t → t.flags = s.flags
  halted {s t : State} : R s t → t.halted = s.halted
  hooks {s t : State} : R s t → t.hooks = s.hooks
  mem {s t : State} : R s t → t.mem = s.mem
  params {s t : State} : R s t → t.params = s.params
  mayDispatch {s t : State} : R s t → mayDispatch t = mayDispatch s
  setRegs {s t : State} (g : Regs) : R s t → R (s.setRegs g) (t.setRegs g)
  setIp {s t : State} (v : Word) : R s t → R (s.setIp v) (t.setIp v)
  setFlags {s t : State} (f : Flags) : R s t → R (s.setFlags f) (t.setFlags f)
  setHalted {s t : State} (b : Bool) : R s t → R (s.setHalted b) (t.setHalted b)
  setMem {s t : State} (m : Memory) : R s t → R (s.setMem m) (t.setMem m)
  flipToggle {s t : State} (p : Override) : R s t → R (s.flipToggle p) (t.flipToggle p)
  addCall {s t : State} (c : HookCall) : R s t → R (s.addCall c) (t.addCall c)

/-- Two outcomes that are alike, with their states related. -/
inductive SameOutcome (R : State → State → Prop) :
    Host.Outcome State Fault Refusal → Host.Outcome State Fault Refusal → Prop
  | next {s t : State} (states : R s t) : SameOutcome R (.next s) (.next t)
  | raised (f : Failure) {s t : State} (states : R s t) :
      SameOutcome R (.fault (.raised f s)) (.fault (.raised f t))
  | endless : SameOutcome R (.fault .endlessPrefixes) (.fault .endlessPrefixes)
  | refused (r : Refusal) : SameOutcome R (.refused r) (.refused r)

/-- Two fetches that end alike, with their states related. -/
inductive SameFetched (R : State → State → Prop) : Fetched → Fetched → Prop
  | ready (i : Instr) {s t : State} (states : R s t) : SameFetched R (.ready i s) (.ready i t)
  | failed (f : Failure) {s t : State} (states : R s t) : SameFetched R (.failed f s) (.failed f t)
  | noMeaning : SameFetched R .noMeaning .noMeaning
  | endless : SameFetched R .endless .endless

namespace Simulation

variable {R : State → State → Prop} {s t : State}

theorem readReg_eq (hR : Simulation R) (h : R s t) (r : Reg) : t.readReg r = s.readReg r := by
  rw [State.readReg, hR.regs h, State.readReg]

theorem writeReg (hR : Simulation R) (h : R s t) (r : Reg) (v : Word) :
    R (s.writeReg r v) (t.writeReg r v) := by
  rw [State.writeReg, State.writeReg, hR.regs h]
  exact hR.setRegs _ h

theorem pushSlot_eq (hR : Simulation R) (h : R s t) : pushSlot t = pushSlot s := by
  rw [pushSlot, hR.readReg_eq h, pushSlot]

theorem pushedValue_eq (hR : Simulation R) (h : R s t) (r : Reg) :
    pushedValue r t = pushedValue r s := by
  simp only [pushedValue, hR.params h, hR.pushSlot_eq h, hR.readReg_eq h]

theorem addHaltCall (hR : Simulation R) (h : R s t) : R (callOnHalt s) (callOnHalt t) := by
  rw [callOnHalt, callOnHalt, hR.hooks h]
  split
  · exact hR.addCall _ h
  · exact h

/-! ### Executions -/

theorem sameOutcome_exec (hR : Simulation R) (h : R s t) (i : Instr) :
    SameOutcome R (exec i s) (exec i t) := by
  rcases Instr.forms i with rfl | rfl | rfl | ⟨p, rfl⟩ | ⟨r, imm, rfl⟩ | ⟨imm, rfl⟩ | ⟨rel, rfl⟩
    | ⟨rel, rfl⟩ | ⟨r, rfl⟩ | ⟨r, rfl⟩
  · exact .next h
  · simp only [exec, execRet_eq, hR.readReg_eq h, hR.mem h]
    split
    · exact .next (hR.setIp _ (hR.writeReg h _ _))
    · exact .raised _ h
  · exact .next (hR.addHaltCall (hR.setHalted _ h))
  · rw [exec_prefix, exec_prefix]
    exact .next (hR.flipToggle p h)
  · rw [exec_mov, exec_mov]
    exact .next (hR.writeReg h r imm)
  · simp only [exec, execAddAcc, hR.readReg_eq h, hR.flags h]
    exact .next (hR.setFlags _ (hR.writeReg h _ _))
  · rw [exec, exec, execJmp, execJmp, hR.ip h]
    exact .next (hR.setIp _ h)
  · simp only [exec, execCall_eq, State.pushPasses, hR.pushSlot_eq h, hR.mem h, hR.ip h]
    split
    · exact .next (hR.setIp _ (hR.setMem _ (hR.writeReg h _ _)))
    · exact .raised _ (hR.writeReg h _ _)
  · simp only [exec_push, pushReg_eq, State.pushPasses, hR.pushSlot_eq h, hR.mem h,
      hR.pushedValue_eq h]
    split
    · exact .next (hR.setMem _ (hR.writeReg h _ _))
    · exact .raised _ (hR.writeReg h _ _)
  · simp only [exec_pop, popReg_eq, hR.readReg_eq h, hR.mem h]
    split
    · exact .next (hR.writeReg (hR.writeReg h _ _) _ _)
    · exact .raised _ h

/-! ### Fetches -/

theorem sameFetched_fetchOperand (hR : Simulation R) (h : R s t) (b : Byte) (a : Word) :
    SameFetched R (fetchOperand b a s) (fetchOperand b a t) := by
  simp only [fetchOperand, fetch32_eq, hR.mayDispatch h, hR.params h, hR.mem h, hR.ip h]
  split
  · split
    · exact .failed _ h
    · split
      · by_cases hin : s.ip.toNat + 4 ≤ s.mem.size
        · simp only [if_pos hin]
          exact .ready _ (hR.setIp _ h)
        · simp only [if_neg hin]
          exact .failed _ h
      · exact .ready _ h
  · exact .noMeaning

theorem sameFetched_fetchLoop (hR : Simulation R) (h : R s t) (fuel : Nat) :
    SameFetched R (fetchLoop fuel s) (fetchLoop fuel t) := by
  induction fuel generalizing s t with
  | zero => exact .endless
  | succ fuel ih =>
    simp only [fetchLoop, fetch8_eq, hR.mem h, hR.ip h]
    by_cases hin : s.ip.toNat + 1 ≤ s.mem.size
    · have hnext := hR.setIp (s.ip + 1) h
      simp only [if_pos hin, hR.params h]
      split
      · exact ih (hR.flipToggle _ hnext)
      · exact hR.sameFetched_fetchOperand hnext _ _
    · simp only [if_neg hin]
      exact .failed _ h

theorem sameFetched_fetchInstr (hR : Simulation R) (h : R s t) :
    SameFetched R (fetchInstr s) (fetchInstr t) := by
  rw [fetchInstr, fetchInstr, hR.mem h]
  exact hR.sameFetched_fetchLoop h _

/-! ### Steps -/

theorem sameOutcome_stepLive (hR : Simulation R) (h : R s t) :
    SameOutcome R (stepLive s) (stepLive t) := by
  have hfetch := hR.sameFetched_fetchInstr h
  simp only [stepLive]
  generalize fetchInstr s = fs, fetchInstr t = ft at hfetch
  cases hfetch with
  | ready i states => exact hR.sameOutcome_exec states i
  | failed f states => exact .raised f states
  | noMeaning => exact .refused _
  | endless => exact .endless

theorem sameOutcome_step (hR : Simulation R) (h : R s t) : SameOutcome R (step s) (step t) := by
  cases hs : s.halted with
  | true =>
    rw [step_of_halted s hs, step_of_halted t ((hR.halted h).trans hs)]
    exact .next h
  | false =>
    rw [step_of_live s hs, step_of_live t ((hR.halted h).trans hs)]
    exact hR.sameOutcome_stepLive h

theorem sameOutcome_stepTimes (hR : Simulation R) (h : R s t) (n : Nat) :
    SameOutcome R (stepTimes n s) (stepTimes n t) := by
  induction n generalizing s t with
  | zero => exact .next h
  | succ n ih =>
    have hstep := hR.sameOutcome_step h
    simp only [stepTimes]
    generalize step s = os, step t = ot at hstep
    cases hstep with
    | next states => exact ih states
    | raised f states => exact .raised f states
    | endless => exact .endless
    | refused r => exact .refused r

end Simulation
end Sys2Proof.Machine

/-! SUPPORT. Noninterference of the override toggles (R105, R149). -/

namespace Sys2Proof.Machine

/-- Two cores of the spec's default policy that differ in their toggles at most. -/
def EqualButToggles (s t : State) : Prop :=
  s.params.opsize16Policy = .ignore ∧ s.eraseToggles = t.eraseToggles

@[simp] theorem State.eraseToggles_flipToggle (s : State) (p : Override) :
    (s.flipToggle p).eraseToggles = s.eraseToggles := by
  cases p <;> rfl

theorem EqualButToggles.params_eq {s t : State} (h : EqualButToggles s t) : t.params = s.params :=
  (congrArg State.params h.2).symm

/-- Under the default policy no test reads the toggles, and no update makes anything else depend on
them. -/
theorem simulation_equalButToggles : Simulation EqualButToggles where
  regs h := (congrArg State.regs h.2).symm
  ip h := (congrArg State.ip h.2).symm
  flags h := (congrArg State.flags h.2).symm
  halted h := (congrArg State.halted h.2).symm
  hooks h := (congrArg State.hooks h.2).symm
  mem h := (congrArg State.mem h.2).symm
  params h := h.params_eq
  mayDispatch h := by
    rw [mayDispatch_of_ignore _ h.1, mayDispatch_of_ignore _ (h.params_eq ▸ h.1)]
  setRegs g h := ⟨h.1, congrArg (·.setRegs g) h.2⟩
  setIp v h := ⟨h.1, congrArg (·.setIp v) h.2⟩
  setFlags f h := ⟨h.1, congrArg (·.setFlags f) h.2⟩
  setHalted b h := ⟨h.1, congrArg (·.setHalted b) h.2⟩
  setMem m h := ⟨h.1, congrArg (·.setMem m) h.2⟩
  flipToggle p h := ⟨by rw [State.flipToggle_params, h.1], by simp [h.2]⟩
  addCall c h := ⟨h.1, congrArg (·.addCall c) h.2⟩

theorem SameOutcome.eraseOutcome_eq {o o' : Host.Outcome State Fault Refusal}
    (h : SameOutcome EqualButToggles o o') : eraseOutcome o = eraseOutcome o' := by
  cases h with
  | next states => rw [eraseOutcome, eraseOutcome, states.2]
  | raised f states => rw [eraseOutcome, eraseOutcome, states.2]
  | endless => rfl
  | refused r => rfl

/-- Settles O12: setting the toggles gives a core that differs in nothing else, and such cores step
alike. -/
theorem togglesHaveNoEffect : Obligations.TogglesHaveNoEffect := by
  unfold Obligations.TogglesHaveNoEffect
  intro s o a hpolicy
  have hequal : EqualButToggles ((s.setOpsize o).setAddrsize a) s := ⟨hpolicy, rfl⟩
  exact (simulation_equalButToggles.sameOutcome_step hequal).eraseOutcome_eq

end Sys2Proof.Machine

/-! SUPPORT. One step from its fetch: decoded code, prefixes, the end of Memory, refusals and the
endless prefix loop (R141 to R149). -/

namespace Sys2Proof.Machine

/-! ### A live core's step, by the end of its fetch -/

theorem step_of_fetch_ready {s t : State} {i : Instr} (hlive : s.halted = false)
    (h : fetchInstr s = .ready i t) : step s = exec i t := by
  rw [step_of_live s hlive, stepLive, h]

theorem step_of_fetch_noMeaning {s : State} (hlive : s.halted = false)
    (h : fetchInstr s = .noMeaning) : step s = .refused .dispatchUnder16BitToggle := by
  rw [step_of_live s hlive, stepLive, h]

theorem step_congr_fetchInstr {s t : State} (hs : s.halted = false) (ht : t.halted = false)
    (h : fetchInstr s = fetchInstr t) : step s = step t := by
  rw [step_of_live s hs, step_of_live t ht, stepLive, stepLive, h]

/-- Settles O6: the fetch of bytes that decode is ready with what they decode to; it has fuel for
every byte of Memory. -/
theorem stepRunsDecodedInstruction : Obligations.StepRunsDecodedInstruction := by
  unfold Obligations.StepRunsDecodedInstruction
  intro s n c hlive hsize htop hdec hm
  exact step_of_fetch_ready hlive (fetchLoop_of_decode _ n s c (by omega) hsize htop hdec hm)

/-! ### The endless prefix loop (R147) -/

/-- Every address lies some number of bytes below `2^32` after `ip`, counted round the top of the
address space. -/
theorem exists_distance (ip a : Word) : ∃ k < 2 ^ 32, ip + BitVec.ofNat 32 k = a := by
  refine ⟨(a - ip).toNat, (a - ip).isLt, ?_⟩
  rw [BitVec.ofNat_toNat, BitVec.setWidth_eq, BitVec.add_comm, BitVec.sub_add_cancel]

/-- A loop that has read more bytes than Memory holds has met the address `N`, unless `N = 2^32`,
and then it has read every byte of Memory. -/
theorem fetchInstr_endless_iff {s : State} (hsize : s.mem.size ≤ 2 ^ 32) :
    fetchInstr s = .endless ↔ s.mem.size = 2 ^ 32
      ∧ ∀ a : Nat, a < 2 ^ 32 → (s.params.opcodes.prefixOf (s.mem.byteAt a)).isSome = true := by
  rw [fetchInstr, fetchLoop_endless_iff]
  constructor
  · intro h
    have htop : s.mem.size = 2 ^ 32 := by
      by_contra hne
      have hip := (h 0 (by omega)).1
      have hend := (h (s.mem.size - s.ip.toNat) (by omega)).1
      simp only [BitVec.toNat_add, BitVec.toNat_ofNat] at hip hend
      omega
    refine ⟨htop, fun a ha => ?_⟩
    obtain ⟨k, hk, hka⟩ := exists_distance s.ip (BitVec.ofNat 32 a)
    have hread := (h k (by omega)).2
    rwa [hka, BitVec.toNat_ofNat, Nat.mod_eq_of_lt ha] at hread
  · rintro ⟨htop, hall⟩ k _
    have hlt := (s.ip + BitVec.ofNat 32 k).isLt
    exact ⟨by omega, hall _ hlt⟩

theorem exec_ne_endless (i : Instr) (s : State) : exec i s ≠ .fault .endlessPrefixes := by
  intro h
  obtain ⟨_, _, hf⟩ := exec_fault i s _ h
  cases hf

theorem step_endless_iff (s : State) :
    step s = .fault .endlessPrefixes ↔ s.halted = false ∧ fetchInstr s = .endless := by
  rcases step_cases s with ⟨hh, hs⟩ | ⟨hh, ⟨i, t, hf, hs⟩ | ⟨f, left, hf, hs⟩ | ⟨hf, hs⟩ | ⟨hf, hs⟩⟩
  · simp [hs, hh]
  · simp [hs, hf, exec_ne_endless]
  · simp [hs, hf]
  · simp [hs, hf]
  · simp [hs, hf, hh]

/-- Settles O13: a step is endless where its fetch is, and `fetchInstr_endless_iff` says where. -/
theorem stepEndlessExactlyOnAllPrefixes : Obligations.StepEndlessExactlyOnAllPrefixes := by
  unfold Obligations.StepEndlessExactlyOnAllPrefixes
  rintro s ⟨⟨_, _, hsize⟩, _⟩
  rw [step_endless_iff, fetchInstr_endless_iff hsize]

/-! ### Prefixes (R143) -/

theorem Toggle.flip_ne (t : Toggle) : t.flip ≠ t := by
  cases t <;> decide

/-- Settles O26: the meaning of a prefix is the flip of its toggle. -/
theorem prefixFlipsOnlyItsToggle : Obligations.PrefixFlipsOnlyItsToggle := by
  unfold Obligations.PrefixFlipsOnlyItsToggle
  exact fun s => ⟨⟨_, rfl, rfl, s.opsize.flip_ne⟩, ⟨_, rfl, rfl, s.addrsize.flip_ne⟩⟩

/-- The fetch at a prefix is the fetch behind it: the loop has one byte of fuel less there, which
matters only where it never ends. -/
theorem fetchInstr_of_prefix {s : State} {p : Override} (hsize : s.mem.size ≤ 2 ^ 32)
    (hin : s.ip.toNat + 1 ≤ s.mem.size)
    (hp : s.params.opcodes.prefixOf (s.mem.byteAt s.ip.toNat) = some p) :
    fetchInstr s = fetchInstr ((s.setIp (s.ip + 1)).flipToggle p) := by
  have hmem : ((s.setIp (s.ip + 1)).flipToggle p).mem = s.mem := by simp
  have hturn : fetchInstr s = fetchLoop s.mem.size ((s.setIp (s.ip + 1)).flipToggle p) :=
    fetchLoop_of_prefix _ s p hin hp
  by_cases hend : fetchInstr s = .endless
  · have hall := (fetchInstr_endless_iff hsize).1 hend
    rw [hend, eq_comm, fetchInstr_endless_iff (hmem ▸ hsize)]
    simpa using hall
  · rw [hturn, eq_comm, fetchInstr, hmem, fetchLoop_succ _ _ (hturn ▸ hend)]

/-- Settles O7: the state behind the prefix is the one its meaning answers, and a step from there
has the same fetch. -/
theorem stepExecutesPrefixThenGoesOn : Obligations.StepExecutesPrefixThenGoesOn := by
  unfold Obligations.StepExecutesPrefixThenGoesOn
  rintro s p ⟨⟨_, _, hsize⟩, _⟩ hlive hin hp
  refine ⟨_, exec_prefix p _, step_congr_fetchInstr hlive ?_ (fetchInstr_of_prefix hsize hin hp)⟩
  rw [State.flipToggle_halted, State.setIp_halted, hlive]

/-! ### The end of Memory (R142, R222) -/

theorem State.codeAtIp_length_le {s : State} {bytes : List Byte} (h : s.codeAtIp bytes) :
    bytes.length ≤ s.mem.size := by
  cases bytes with
  | nil => exact Nat.zero_le _
  | cons b bs => exact le_of_add_le_right (State.codeAtIp_inside h).1

/-- The fetch of an opcode that lies outside Memory behind any prefixes. -/
theorem fetchInstr_outside {s : State} {ps : List Override} (hl : s.params.opcodes.legal)
    (hcode : s.codeAtIp (prefixBytes s.params.opcodes ps))
    (hout : ¬ (s.past ps.length ps).ip.toNat + 1 ≤ s.mem.size) :
    fetchInstr s
      = .failed (.outOfBounds (s.past ps.length ps).ip.toNat 1) (s.past ps.length ps) := by
  have hlen : ps.length ≤ s.mem.size := by simpa [prefixBytes] using State.codeAtIp_length_le hcode
  have hfuel : s.mem.size + 1 = (s.mem.size - ps.length + 1) + ps.length := by omega
  rw [fetchInstr, hfuel, fetchLoop_prefixes _ s ps hl hcode,
    fetchLoop_of_outside _ _ (by rwa [State.past_mem])]

/-- Settles O9, by `fetchInstr_outside`. -/
theorem opcodeFetchOutOfBoundsRaises : Obligations.OpcodeFetchOutOfBoundsRaises := by
  unfold Obligations.OpcodeFetchOutOfBoundsRaises
  rintro s prefixes ⟨_, hl⟩ hlive hcode hout
  exact step_of_fetch_failed hlive (fetchInstr_outside hl hcode hout)

/-! ### The policy parameter (R149) -/

theorem mayDispatch_of_refuse {s : State} (hpolicy : s.params.opsize16Policy = .refuse)
    (htoggle : s.opsize = .bits16 ∨ s.addrsize = .bits16) : mayDispatch s = false := by
  rcases htoggle with h | h <;> simp [mayDispatch, hpolicy, h]

theorem fetchInstr_ne_noMeaning {s : State} (hpolicy : s.params.opsize16Policy = .ignore) :
    fetchInstr s ≠ .noMeaning := by
  intro h
  obtain ⟨_, _, ⟨_, h'⟩ | ⟨_, h', _⟩ | ⟨_, hne⟩ | h'⟩ := fetchLoop_cases (s.mem.size + 1) s
  · cases h'.symm.trans h
  · cases h'.symm.trans h
  · exact hne hpolicy
  · cases h'.symm.trans h

theorem step_not_refused {s : State} (hpolicy : s.params.opsize16Policy = .ignore) (r : Refusal) :
    step s ≠ .refused r := by
  rcases step_cases s with ⟨_, hs⟩ | ⟨_, ⟨i, t, _, hs⟩ | ⟨f, left, _, hs⟩ | ⟨hf, _⟩ | ⟨_, hs⟩⟩
  · simp [hs]
  · exact hs ▸ exec_not_refused i t r
  · simp [hs]
  · exact absurd hf (fetchInstr_ne_noMeaning hpolicy)
  · simp [hs]

/-- Settles O11: the default policy lets every dispatch through and every instruction has a meaning;
the other policy stops the fetch at the dispatch itself. -/
theorem policyDecidesWhetherStepHasMeaning : Obligations.PolicyDecidesWhetherStepHasMeaning := by
  unfold Obligations.PolicyDecidesWhetherStepHasMeaning
  refine ⟨fun s r hpolicy => step_not_refused hpolicy r, ?_⟩
  rintro s prefixes b ⟨_, hl⟩ hlive hpolicy hp hcode htoggle
  apply step_of_fetch_noMeaning hlive
  rw [fetchInstr_behind s prefixes b hl hcode hp]
  apply fetchOperand_of_refused
  rw [mayDispatch_past]
  exact mayDispatch_of_refuse (by rwa [State.flipToggles_params]) htoggle

end Sys2Proof.Machine

/-! SUPPORT. `run` as iterated steps, and a run in two parts (R150 to R154, R223). -/

namespace Sys2Proof.Machine

/-! ### The loop of `run` is `stepTimes` -/

/-- How `run` ends after `count` steps that ended so: the exit test on a state, the delivery of a
failure, and nothing else to do (R152, R153, R223). -/
def runEndOf (count : Nat) : Host.Outcome State Fault Refusal → RunEnd
  | .next s => runExit count s
  | .fault (.raised f left) => deliver f left
  | .fault .endlessPrefixes => .endless
  | .refused r => .noMeaning r

theorem runEndOf_of_halted (count : Nat) {s : State} (h : s.halted = true) :
    runEndOf count (.next s) = .returned s := by
  rw [runEndOf, runExit, if_pos h]

theorem runEndOf_of_live (count : Nat) {s : State} (h : s.halted = false) :
    runEndOf count (.next s) = deliver (.stepLimitExceeded count) s := by
  rw [runEndOf, runExit, h, if_neg Bool.false_ne_true]

theorem stepTimes_of_next (n : Nat) {s t : State} (h : step s = .next t) :
    stepTimes (n + 1) s = stepTimes n t := by
  rw [stepTimes, h]

theorem stepTimes_of_halted (n : Nat) {s : State} (h : s.halted = true) :
    stepTimes n s = .next s := by
  induction n with
  | zero => rfl
  | succ n ih => rw [stepTimes_of_next n (step_of_halted s h), ih]

/-- The exit tests of the loop add nothing to the steps: no step writes `running`, and where the
loop ends early, on a halted core, the steps left to do change nothing. -/
theorem runLoop_eq (budget count : Nat) {s : State} (hrunning : s.running = true) :
    runLoop budget count s = runEndOf (count + budget) (stepTimes budget s) := by
  induction budget generalizing count s with
  | zero => rfl
  | succ budget ih =>
    cases hh : s.halted with
    | true => rw [runLoop_of_halted _ _ s hh, stepTimes_of_halted _ hh, runEndOf_of_halted _ hh]
    | false =>
      rw [runLoop, hrunning, hh, stepTimes]
      cases hs : step s with
      | next t =>
        have hcount : count + (budget + 1) = count + 1 + budget := by omega
        rw [hcount]
        exact ih _ ((step_running s t hs).trans hrunning)
      | fault f => cases f <;> rfl
      | refused r => rfl

theorem run_eq (n : Nat) (s : State) : run n s = runEndOf n (stepTimes n (s.setRunning true)) := by
  rw [run, runLoop_eq n 0 rfl, Nat.zero_add]

/-- Settles O42: each clause is a branch of `runEndOf`. -/
theorem runIsIteratedSteps : Obligations.RunIsIteratedSteps := by
  unfold Obligations.RunIsIteratedSteps
  intro s n
  rw [run_eq]
  refine ⟨fun t h => ?_, fun f left h => ?_, fun h => ?_, fun r h => ?_⟩ <;> rw [h] <;> rfl

/-- Settles O41: the steps of a halted core are none. -/
theorem haltedCoreDoesNothing : Obligations.HaltedCoreDoesNothing := by
  unfold Obligations.HaltedCoreDoesNothing
  exact fun s maxSteps h => ⟨step_of_halted s h, runLoop_of_halted maxSteps 0 _ h⟩

/-! ### Sequences of steps -/

theorem exists_step_of_stepTimes {n : Nat} {s v : State} (h : stepTimes (n + 1) s = .next v) :
    ∃ t : State, step s = .next t ∧ stepTimes n t = .next v := by
  rw [stepTimes] at h
  cases hs : step s with
  | next t => exact ⟨t, rfl, by rwa [hs] at h⟩
  | fault f => rw [hs] at h; cases h
  | refused r => rw [hs] at h; cases h

theorem stepTimes_add {a : Nat} {s v : State} (b : Nat) (h : stepTimes a s = .next v) :
    stepTimes (a + b) s = stepTimes b v := by
  induction a generalizing s with
  | zero =>
    cases h
    rw [Nat.zero_add]
  | succ a ih =>
    obtain ⟨t, hs, ht⟩ := exists_step_of_stepTimes h
    rw [Nat.succ_add, stepTimes_of_next _ hs, ih ht]

/-- What every step keeps, a sequence of steps keeps. -/
theorem stepTimes_keeps {α : Type} (get : State → α)
    (hstep : ∀ s t : State, step s = .next t → get t = get s) {n : Nat} {s t : State}
    (h : stepTimes n s = .next t) : get t = get s := by
  induction n generalizing s with
  | zero =>
    cases h
    rfl
  | succ n ih =>
    obtain ⟨u, hs, hu⟩ := exists_step_of_stepTimes h
    exact (ih hu).trans (hstep s u hs)

/-- No step writes a hook slot (R42). -/
theorem step_hooks (s t : State) (h : step s = .next t) : t.hooks = s.hooks := by
  rcases step_cases s with ⟨_, hs⟩ | ⟨_, ⟨i, u, hf, hs⟩ | ⟨f, u, _, hs⟩ | ⟨_, hs⟩ | ⟨_, hs⟩⟩ <;>
    rw [hs] at h
  · cases h
    rfl
  · obtain ⟨ps, v, rfl⟩ := fetchInstr_ready s u i hf
    obtain ⟨_, hhooks, _⟩ := exec_control _ _ _ h
    simpa using hhooks
  · cases h
  · cases h
  · cases h

/-- `StepLimitExceeded` is raised by `run` alone (R215). -/
theorem step_ne_stepLimitExceeded (s left : State) (count : Nat) :
    step s ≠ .fault (.raised (.stepLimitExceeded count) left) := by
  intro h
  rcases step_cases s with ⟨_, hs⟩ | ⟨_, ⟨i, u, _, hs⟩ | ⟨f, u, hf, hs⟩ | ⟨_, hs⟩ | ⟨_, hs⟩⟩ <;>
    rw [hs] at h
  · cases h
  · obtain ⟨_, _, hfault⟩ := exec_fault i u _ h
    cases hfault
  · cases h
    obtain ⟨_, _, ⟨_, h'⟩ | ⟨_, h', ⟨_, hk | hk⟩ | ⟨_, _, _, hk⟩⟩ | ⟨h', _⟩ | h'⟩ :=
      fetchLoop_cases (s.mem.size + 1) s <;> cases h'.symm.trans hf <;> cases hk
  · cases h
  · cases h

theorem stepTimes_ne_stepLimitExceeded (n : Nat) (s left : State) (count : Nat) :
    stepTimes n s ≠ .fault (.raised (.stepLimitExceeded count) left) := by
  induction n generalizing s with
  | zero => exact nofun
  | succ n ih =>
    rw [stepTimes]
    cases hs : step s with
    | next t => exact ih t
    | fault f =>
      rintro ⟨⟩
      exact step_ne_stepLimitExceeded s left count hs
    | refused r => exact nofun

/-! ### States up to the recorded calls with `StepLimitExceeded` -/

/-- Two states that differ in the recorded calls with `StepLimitExceeded` at most. -/
abbrev EqualButLimits (s t : State) : Prop := s.eraseLimits = t.eraseLimits

theorem State.eraseLimits_flipToggle (s : State) (p : Override) :
    (s.flipToggle p).eraseLimits = s.eraseLimits.flipToggle p := by
  cases p <;> rfl

theorem State.eraseLimits_addCall (s : State) (c : HookCall) :
    (s.addCall c).eraseLimits = if c.isLimit then s.eraseLimits else s.eraseLimits.addCall c := by
  cases hc : c.isLimit <;> simp [State.eraseLimits, State.addCall, hc]

/-- A call with `StepLimitExceeded` is one that is forgotten. -/
theorem equalButLimits_addCall (s : State) (c : HookId) (count : Nat) :
    EqualButLimits (s.addCall (.onError c (.stepLimitExceeded count))) s :=
  s.eraseLimits_addCall _

/-- Nothing reads the record of calls, and a new call goes behind the old ones. -/
theorem simulation_equalButLimits : Simulation EqualButLimits where
  regs h := (congrArg State.regs h).symm
  ip h := (congrArg State.ip h).symm
  flags h := (congrArg State.flags h).symm
  halted h := (congrArg State.halted h).symm
  hooks h := (congrArg State.hooks h).symm
  mem h := (congrArg State.mem h).symm
  params h := (congrArg State.params h).symm
  mayDispatch h := (congrArg mayDispatch h).symm
  setRegs g h := congrArg (·.setRegs g) h
  setIp v h := congrArg (·.setIp v) h
  setFlags f h := congrArg (·.setFlags f) h
  setHalted b h := congrArg (·.setHalted b) h
  setMem m h := congrArg (·.setMem m) h
  flipToggle p h := by
    rw [EqualButLimits, State.eraseLimits_flipToggle, State.eraseLimits_flipToggle, h]
  addCall c h := by
    rw [EqualButLimits, State.eraseLimits_addCall, State.eraseLimits_addCall, h]

theorem eraseLimits_deliver {s t : State} (f : Failure) (h : EqualButLimits s t) :
    (deliver f s).eraseLimits = (deliver f t).eraseLimits := by
  have hrunning : EqualButLimits (s.setRunning false) (t.setRunning false) :=
    congrArg (·.setRunning false) h
  have hhooks := simulation_equalButLimits.hooks h
  cases hc : s.hooks.onError with
  | none =>
    rw [deliver_of_none f s hc, deliver_of_none f t (hhooks ▸ hc)]
    exact congrArg (RunEnd.raised f) hrunning
  | some c =>
    rw [deliver_of_some f s c hc, deliver_of_some f t c (hhooks ▸ hc)]
    exact congrArg RunEnd.returned (simulation_equalButLimits.addCall _ hrunning)

theorem eraseLimits_runEndOf {o o' : Host.Outcome State Fault Refusal} (count : Nat)
    (h : SameOutcome EqualButLimits o o') :
    (runEndOf count o).eraseLimits = (runEndOf count o').eraseLimits := by
  cases h with
  | @next s t states =>
    have hhalted := simulation_equalButLimits.halted states
    cases hh : s.halted with
    | true =>
      rw [runEndOf_of_halted _ hh, runEndOf_of_halted _ (hhalted.trans hh)]
      exact congrArg RunEnd.returned states
    | false =>
      rw [runEndOf_of_live _ hh, runEndOf_of_live _ (hhalted.trans hh)]
      exact eraseLimits_deliver _ states
  | raised f states => exact eraseLimits_deliver f states
  | endless => rfl
  | refused r => rfl

/-! ### Counts added afterwards (R153) -/

theorem addSteps_deliver (a : Nat) {f : Failure} (s : State)
    (hf : ∀ count : Nat, f ≠ .stepLimitExceeded count) :
    (deliver f s).addSteps a = deliver f s := by
  cases hc : s.hooks.onError with
  | none =>
    rw [deliver_of_none f s hc]
    cases f with
    | stepLimitExceeded count => exact absurd rfl (hf count)
    | _ => rfl
  | some c =>
    rw [deliver_of_some f s c hc]
    rfl

theorem addSteps_deliver_limit (a b : Nat) {s : State} (h : s.hooks.onError = none) :
    (deliver (.stepLimitExceeded b) s).addSteps a = deliver (.stepLimitExceeded (a + b)) s := by
  rw [deliver_of_none _ s h, deliver_of_none _ s h]
  rfl

/-- With a hook the counts differ in the recorded call alone. -/
theorem eraseLimits_addSteps_deliver_limit (a b : Nat) (s : State) :
    ((deliver (.stepLimitExceeded b) s).addSteps a).eraseLimits
      = (deliver (.stepLimitExceeded (a + b)) s).eraseLimits := by
  cases hc : s.hooks.onError with
  | none => rw [addSteps_deliver_limit a b hc]
  | some c =>
    rw [deliver_of_some _ s c hc, deliver_of_some _ s c hc]
    exact congrArg RunEnd.returned
      ((equalButLimits_addCall _ c b).trans (equalButLimits_addCall _ c (a + b)).symm)

/-- An end of `b` steps is that of `a + b` steps once `a` is added to its count, in any view `g` of
ends in which this is so of the one end that reports a count. -/
theorem addSteps_runEndOf {β : Type} (g : RunEnd → β) (a b : Nat)
    {o : Host.Outcome State Fault Refusal}
    (hlimit : ∀ (left : State) (count : Nat), o ≠ .fault (.raised (.stepLimitExceeded count) left))
    (hbudget : ∀ u : State, o = .next u →
      g ((deliver (.stepLimitExceeded b) u).addSteps a)
        = g (deliver (.stepLimitExceeded (a + b)) u)) :
    g ((runEndOf b o).addSteps a) = g (runEndOf (a + b) o) := by
  cases o with
  | next u =>
    cases hh : u.halted with
    | true => rw [runEndOf_of_halted _ hh, runEndOf_of_halted _ hh, RunEnd.addSteps]
    | false =>
      rw [runEndOf_of_live _ hh, runEndOf_of_live _ hh]
      exact hbudget u rfl
  | fault f =>
    cases f with
    | raised f left =>
      have hf : ∀ count : Nat, f ≠ .stepLimitExceeded count :=
        fun count hf => hlimit left count (hf ▸ rfl)
      exact congrArg g (addSteps_deliver a left hf)
    | endlessPrefixes => rfl
  | refused r => rfl

/-! ### A run in two parts (R154) -/

/-- The state a delivery leaves, with `running` set again, is the state it was made in, but for the
call of the hook (R223). -/
theorem setRunning_of_deliver {f : Failure} {v t : State} (hrunning : v.running = true)
    (h : (deliver f v).state? = some t) :
    (v.hooks.onError = none ∧ t.setRunning true = v)
      ∨ ∃ c : HookId, v.hooks.onError = some c ∧ t.setRunning true = v.addCall (.onError c f) := by
  have hself : v.setRunning true = v := by rw [← hrunning]; rfl
  cases hc : v.hooks.onError with
  | none =>
    rw [deliver_of_none f v hc] at h
    cases h
    exact .inl ⟨rfl, hself⟩
  | some c =>
    rw [deliver_of_some f v c hc] at h
    cases h
    exact .inr ⟨c, rfl, congrArg (State.addCall · (.onError c f)) hself⟩

/-- Settles O44: the second run starts in the state the first `a` steps left, but for the recorded
call of the hook, which nothing reads; so its steps are the last `b` of the `a + b`, and the counts
are added. -/
theorem chunkedRunIsOneRun : Obligations.ChunkedRunIsOneRun := by
  unfold Obligations.ChunkedRunIsOneRun
  intro a b s t v hsteps hlive hend
  have hrunning : v.running = true := stepTimes_keeps State.running step_running hsteps
  have hhooks : v.hooks = (s.setRunning true).hooks := stepTimes_keeps State.hooks step_hooks hsteps
  have hlimit (u : State) := stepTimes_ne_stepLimitExceeded b u
  rw [run_eq, hsteps, runEndOf_of_live _ hlive] at hend
  rw [run_eq, stepTimes_add b hsteps, run_eq b t]
  rcases setRunning_of_deliver hrunning hend with ⟨hnone, hv⟩ | ⟨c, hsome, hv⟩
  · have hexact : runEndOf (a + b) (stepTimes b v) = (runEndOf b (stepTimes b v)).addSteps a :=
      (addSteps_runEndOf id a b (hlimit v) fun u hu => addSteps_deliver_limit a b
        (stepTimes_keeps State.hooks step_hooks hu ▸ hnone)).symm
    rw [hv]
    exact ⟨congrArg _ hexact, fun _ => hexact⟩
  · have hsame : EqualButLimits v (t.setRunning true) := hv ▸ (equalButLimits_addCall v c a).symm
    refine ⟨?_, fun hnone => by simp [hhooks, hnone] at hsome⟩
    calc (runEndOf (a + b) (stepTimes b v)).eraseLimits
        = (runEndOf (a + b) (stepTimes b (t.setRunning true))).eraseLimits :=
          eraseLimits_runEndOf _ (simulation_equalButLimits.sameOutcome_stepTimes hsame b)
      _ = ((runEndOf b (stepTimes b (t.setRunning true))).addSteps a).eraseLimits :=
          (addSteps_runEndOf _ a b (hlimit _) fun u _ =>
            eraseLimits_addSteps_deliver_limit a b u).symm

end Sys2Proof.Machine

/-! SUPPORT. The instructions that touch neither `ip` nor Memory: NOP and MOV (R160 to R162). -/

namespace Sys2Proof.Machine

/-- NOP has no effect of its own (R160). -/
theorem exec_nop (s : State) : exec .nop s = .next s := rfl

/-- Past one byte and no prefix, only `ip` has moved. -/
theorem State.past_one (s : State) : s.past 1 [] = s.setIp (s.ip + 1) := rfl

theorem encodeStep_nop (o : Config.Opcodes) :
    encodeStep o { prefixes := [], core := .nop } = [o.nop] :=
  rfl

/-- Settles O15: a step at the encoding of NOP executes NOP past its one byte. -/
theorem nopChangesOnlyIp : Obligations.NopChangesOnlyIp := by
  unfold Obligations.NopChangesOnlyIp
  refine fun s => ⟨exec_nop s, ?_⟩
  rintro ⟨_, hl⟩ hlive hm hcode
  rw [← encodeStep_nop] at hcode
  have hstep := step_of_encodeStep hl hlive rfl hcode hm
  rwa [encodeStep_nop, List.length_singleton, State.past_one, exec_nop] at hstep

/-- A register write leaves all control state. -/
theorem writeReg_sameControl (s : State) (r : Reg) (v : Word) : sameControl s (s.writeReg r v) :=
  ⟨rfl, rfl, rfl, rfl, rfl, rfl, rfl⟩

/-- Settles O16: MOV is one register write, with that write's frame. -/
theorem movWritesOnlyItsRegister : Obligations.MovWritesOnlyItsRegister := by
  unfold Obligations.MovWritesOnlyItsRegister
  intro r imm s
  exact ⟨s.writeReg r imm, exec_mov r imm s, s.readReg_writeReg_same r imm, writeReg_frame s r imm,
    s.writeReg_ip r imm, s.writeReg_flags r imm, sameMemory_of_mem_eq (s.writeReg_mem r imm),
    writeReg_sameControl s r imm⟩

end Sys2Proof.Machine

/-! SUPPORT. The ALU adder and ADD ACC, imm32 (R170 to R173). -/

namespace Sys2Proof.Machine

/-! ### The adder (R170) -/

theorem adder_fst_toNat (a b : Word) : (adder a b).1.toNat = (a.toNat + b.toNat) % 2 ^ 32 :=
  BitVec.toNat_ofNat _ 32

theorem adder_snd_iff (a b : Word) : (adder a b).2 = true ↔ 2 ^ 32 ≤ a.toNat + b.toNat :=
  decide_eq_true_iff

/-- Settles O52: the sum narrowed to a word is its remainder, and the carry is the test itself. -/
theorem adderIsExactSum : Obligations.AdderIsExactSum := by
  unfold Obligations.AdderIsExactSum
  exact fun a b => ⟨adder_fst_toNat a b, adder_snd_iff a b⟩

/-! ### The flags after ADD (R171) -/

@[simp] theorem Flags.afterAdd_carry (f : Flags) (res : Word) (carry : Bool) :
    (f.afterAdd res carry).carry = carry :=
  rfl

theorem Flags.afterAdd_zero_iff (f : Flags) (res : Word) (carry : Bool) :
    (f.afterAdd res carry).zero = true ↔ res = 0 := by
  rw [Flags.afterAdd, Flags.setZS32, ofInt_toNat, beq_iff_eq]

theorem Flags.afterAdd_sign (f : Flags) (res : Word) (carry : Bool) :
    (f.afterAdd res carry).sign = res.getLsbD 31 := by
  rw [Flags.afterAdd, Flags.setZS32, ofInt_toNat]

/-! ### The instruction -/

/-- ADD writes the accumulator and the flags, both from the adder's answer (R171). -/
theorem exec_addAcc (imm : Word) (s : State) :
    exec (.addAcc imm) s = .next
      ((s.writeReg .acc (adder (s.readReg .acc) imm).1).setFlags
        (s.flags.afterAdd (adder (s.readReg .acc) imm).1 (adder (s.readReg .acc) imm).2)) :=
  rfl

/-- Settles O17: the accumulator and the flags hold the adder's answer, and the frame is that of one
register write and one update of the flags. -/
theorem addResultAndFlags : Obligations.AddResultAndFlags := by
  unfold Obligations.AddResultAndFlags
  intro imm s
  refine ⟨_, exec_addAcc imm s, ?_⟩
  rw [State.readReg_setFlags, State.readReg_writeReg_same, State.setFlags_flags,
    Flags.afterAdd_carry]
  exact ⟨adder_fst_toNat _ _, adder_snd_iff _ _, s.flags.afterAdd_zero_iff _ _,
    s.flags.afterAdd_sign _ _, s.flags.sameFlagsButAdd_afterAdd _ _,
    writeReg_frame s .acc (adder (s.readReg .acc) imm).1, rfl, sameMemory_of_mem_eq rfl,
    writeReg_sameControl s .acc (adder (s.readReg .acc) imm).1⟩

/-- A number that fits in a word is read back from it. -/
theorem toNat_ofNat_of_lt {n : Nat} (hn : n < 2 ^ 32) : (BitVec.ofNat 32 n : Word).toNat = n := by
  rw [BitVec.toNat_ofNat, Nat.mod_eq_of_lt hn]

/-- Settles O18: the immediate stands for `2^32 - k` itself, so the exact sum is `a + 2^32 - k`: it is
`a - k` modulo `2^32`, and reaches `2^32` when `k ≤ a`. -/
theorem addOfNegativeImmediateSubtracts : Obligations.AddOfNegativeImmediateSubtracts := by
  unfold Obligations.AddOfNegativeImmediateSubtracts
  intro k s hpos hlt
  obtain ⟨t, hexec, hsum, hcarry, -⟩ := addResultAndFlags (BitVec.ofNat 32 (2 ^ 32 - k)) s
  rw [toNat_ofNat_of_lt (by omega)] at hsum hcarry
  refine ⟨t, hexec, ?_, ?_⟩
  · apply BitVec.eq_of_toNat_eq
    rw [hsum, BitVec.toNat_sub, toNat_ofNat_of_lt (by omega), Nat.add_comm]
  · rw [hcarry]
    omega

end Sys2Proof.Machine

/-! SUPPORT. The control transfers JMP, CALL and RET (R180 to R185). -/

namespace Sys2Proof.Machine

/-! ### JMP (R180) -/

theorem exec_jmp (rel : Word) (s : State) : exec (.jmp rel) s = .next (s.setIp (s.ip + rel)) := rfl

/-- Setting `ip` leaves all control state. -/
theorem setIp_sameControl (s : State) (v : Word) : sameControl s (s.setIp v) :=
  ⟨rfl, rfl, rfl, rfl, rfl, rfl, rfl⟩

/-- Settles O19: JMP sets `ip` to a sum of words, which wraps at `2^32`, and does nothing else. -/
theorem jmpSetsOnlyIp : Obligations.JmpSetsOnlyIp := by
  unfold Obligations.JmpSetsOnlyIp
  intro rel s
  exact ⟨s.setIp (s.ip + rel), exec_jmp rel s, BitVec.toNat_add s.ip rel,
    fun r _ => s.readReg_setIp (s.ip + rel) r, rfl, sameMemory_of_mem_eq rfl,
    setIp_sameControl s (s.ip + rel)⟩

/-! ### CALL (R181) -/

/-- CALL completes exactly where its slot passes the bounds test, and in one way (R181, R190). -/
theorem exec_call_eq_next_iff (rel : Word) (s t : State) :
    exec (.call rel) s = .next t ↔ s.pushPasses ∧
      ((s.writeReg .sp (pushSlot s)).setMem
        (s.mem.putBytes (pushSlot s).toNat (bytes32 s.ip))).setIp (s.ip + rel) = t := by
  rw [exec, execCall_eq]
  by_cases h : s.pushPasses <;> simp [h]

/-- Settles O21: the next state is one write of the stack pointer, one store at the slot and one write
of `ip`; the word stored is the one the slot then reads as. -/
theorem callPushesReturnAddress : Obligations.CallPushesReturnAddress := by
  unfold Obligations.CallPushesReturnAddress
  intro rel s hpasses
  refine ⟨_, (exec_call_eq_next_iff rel s _).2 ⟨hpasses, rfl⟩, ?_⟩
  rw [State.readReg_setIp, State.readReg_setMem, State.readReg_writeReg_same]
  exact ⟨toNat_pushSlot s, s.mem.read32_putBytes32 _ s.ip hpasses, rfl,
    writeReg_frame s .sp (pushSlot s), sameMemoryOutside_of_putBytes (bytes32_length s.ip) rfl, rfl,
    writeReg_sameControl s .sp (pushSlot s)⟩

/-! ### RET (R182) -/

/-- A word inside Memory can be read (R62). -/
theorem Memory.exists_read32_of_inside (m : Memory) {a : Nat} (h : a + 4 ≤ m.size) :
    ∃ v : Word, m.read32 a = .ok v :=
  ⟨_, (m.access_ok_iff a 4 _ _).2 ⟨h, rfl⟩⟩

/-- RET from a word that can be read at the stack pointer (R182, R191). -/
theorem exec_ret_of_read32 {s : State} {v : Word}
    (h : s.mem.read32 (s.readReg .sp).toNat = .ok v) :
    exec .ret s = .next ((s.writeReg .sp (s.readReg .sp + 4)).setIp v) := by
  rw [exec, execRet, pop32, h]

/-- Settles O22: inside Memory the word at the stack pointer can be read, and RET then writes the
stack pointer and `ip` alone. -/
theorem retPopsInstructionPointer : Obligations.RetPopsInstructionPointer := by
  unfold Obligations.RetPopsInstructionPointer
  intro s hinside
  obtain ⟨v, hread⟩ := s.mem.exists_read32_of_inside hinside
  refine ⟨_, exec_ret_of_read32 hread, hread, ?_, writeReg_frame s .sp (s.readReg .sp + 4), rfl,
    sameMemory_of_mem_eq rfl, writeReg_sameControl s .sp (s.readReg .sp + 4)⟩
  rw [State.readReg_setIp, State.readReg_writeReg_same]
  exact BitVec.toNat_add (s.readReg .sp) 4

/-! ### CALL, then RET (R185) -/

/-- The increment after a load undoes the decrement before a store, across `2^32` too (R190, R191). -/
theorem pushSlot_add_four (s : State) : pushSlot s + 4 = s.readReg .sp :=
  BitVec.sub_add_cancel _ _

/-- Settles O31: the four bytes at the slot determine the word RET reads there, and CALL left in them
the address after itself. -/
theorem callThenRetReturns : Obligations.CallThenRetReturns := by
  unfold Obligations.CallThenRetReturns
  intro rel s t u hcall hsp hsize hbytes
  obtain ⟨hpasses, rfl⟩ := (exec_call_eq_next_iff rel s t).1 hcall
  rw [State.readReg_setIp, State.readReg_setMem, State.readReg_writeReg_same] at hsp hbytes
  have hread : u.mem.read32 (u.readReg .sp).toNat = .ok s.ip := by
    rw [hsp, Memory.read32_congr _ u.mem _ hsize hbytes]
    exact s.mem.read32_putBytes32 _ s.ip hpasses
  refine ⟨_, exec_ret_of_read32 hread, rfl, ?_⟩
  rw [State.readReg_setIp, State.readReg_writeReg_same, hsp, pushSlot_add_four]

end Sys2Proof.Machine

/-! SUPPORT. The stack instructions PUSH and POP (R190 to R196). -/

namespace Sys2Proof.Machine

/-! ### PUSH (R192, R193) -/

/-- PUSH completes exactly where its slot passes the bounds test, and in one way (R190, R192). -/
theorem exec_push_eq_next_iff (r : Reg) (s t : State) :
    exec (Instr.push r) s = .next t ↔ s.pushPasses ∧
      (s.writeReg .sp (pushSlot s)).setMem
        (s.mem.putBytes (pushSlot s).toNat (bytes32 (pushedValue r s))) = t := by
  rw [exec_push, pushReg_eq]
  by_cases h : s.pushPasses <;> simp [h]

/-- `PUSH_SP_VALUE` matters for a push of the stack pointer alone (R193). -/
theorem pushedValue_eq_ite (r : Reg) (s : State) :
    pushedValue r s = if s.params.pushSpValue = .decremented ∧ r = .sp then s.readReg .sp - 4
      else s.readReg r := by
  unfold pushedValue
  split
  · next hparam => rw [if_pos ⟨hparam, rfl⟩, pushSlot]
  · next hother => rw [if_neg fun ⟨hparam, hr⟩ => hother hparam hr]

/-- With `PUSH_SP_VALUE = old` every register is stored as it was before the decrement (R193, D11). -/
theorem pushedValue_of_old (r : Reg) {s : State} (hold : s.params.pushSpValue = .old) :
    pushedValue r s = s.readReg r := by
  rw [pushedValue_eq_ite, hold, if_neg fun ⟨hparam, _⟩ => nomatch hparam]

/-- Settles O23: the next state is one write of the stack pointer and one store at the slot; the word
stored is the one the slot then reads as. -/
theorem pushStoresRegister : Obligations.PushStoresRegister := by
  unfold Obligations.PushStoresRegister
  intro r s hpasses
  refine ⟨_, (exec_push_eq_next_iff r s _).2 ⟨hpasses, rfl⟩, ?_⟩
  rw [State.readReg_setMem, State.readReg_writeReg_same, ← pushedValue_eq_ite]
  exact ⟨toNat_pushSlot s, s.mem.read32_putBytes32 _ _ hpasses, writeReg_frame s .sp (pushSlot s),
    sameMemoryOutside_of_putBytes (bytes32_length (pushedValue r s)) rfl, rfl, rfl,
    writeReg_sameControl s .sp (pushSlot s)⟩

/-- Settles O27: PUSH and CALL fail as their shared `push32` does, after the decrement and before
anything else. -/
theorem failedPushLeavesDecrement : Obligations.FailedPushLeavesDecrement := by
  unfold Obligations.FailedPushLeavesDecrement
  rintro s _ (⟨r, rfl⟩ | ⟨rel, rfl⟩) hfails
  · rw [exec_push, pushReg_eq, if_neg hfails, pushSlot]
  · rw [exec, execCall_eq, if_neg hfails, pushSlot]

/-! ### POP (R194, R195) -/

/-- POP of a word that can be read at the stack pointer: the register is written last (R194, R195). -/
theorem exec_pop_of_read32 (r : Reg) {s : State} {v : Word}
    (h : s.mem.read32 (s.readReg .sp).toNat = .ok v) :
    exec (Instr.pop r) s = .next ((s.writeReg .sp (s.readReg .sp + 4)).writeReg r v) := by
  rw [exec_pop, popReg, pop32, h]

/-- Two register writes leave every register but those two. -/
theorem writeReg_writeReg_frame (s : State) (r q : Reg) (v w : Word) :
    sameRegsBut [r, q] s ((s.writeReg r v).writeReg q w) := by
  intro x hx
  obtain ⟨hr, hq⟩ : x ≠ r ∧ x ≠ q := by simpa using hx
  rw [State.readReg_writeReg_of_ne _ q x w hq, State.readReg_writeReg_of_ne s r x v hr]

/-- Settles O24: inside Memory the word at the stack pointer can be read, and POP then writes the
stack pointer and, after it, its register. -/
theorem popLoadsRegister : Obligations.PopLoadsRegister := by
  unfold Obligations.PopLoadsRegister
  intro r s hinside
  obtain ⟨v, hread⟩ := s.mem.exists_read32_of_inside hinside
  refine ⟨_, exec_pop_of_read32 r hread, ?_, fun hr => ?_, writeReg_writeReg_frame s .sp r _ v, rfl,
    rfl, sameMemory_of_mem_eq rfl, writeReg_sameControl s .sp (s.readReg .sp + 4)⟩
  · rw [State.readReg_writeReg_same, hread]
  · rw [State.readReg_writeReg_of_ne _ r .sp v hr.symm, State.readReg_writeReg_same]
    exact BitVec.toNat_add (s.readReg .sp) 4

/-- Settles O28: POP and RET fail as their shared `pop32` does, whose load precedes its increment. -/
theorem failedPopChangesNothing : Obligations.FailedPopChangesNothing := by
  unfold Obligations.FailedPopChangesNothing
  rintro s _ (⟨r, rfl⟩ | rfl) houtside
  · rw [exec_pop, popReg_eq, if_neg houtside]
  · rw [exec, execRet_eq, if_neg houtside]

/-! ### PUSH, then POP (R196) -/

/-- Settles O30: the pop reads the word the push stored, from the slot the push left the stack pointer
at, and its increment undoes the decrement. -/
theorem pushThenPopMovesValue : Obligations.PushThenPopMovesValue := by
  unfold Obligations.PushThenPopMovesValue
  intro r q s t hold hpush
  obtain ⟨hpasses, rfl⟩ := (exec_push_eq_next_iff r s t).1 hpush
  rw [pushedValue_of_old r hold]
  have hread := s.mem.read32_putBytes32 (pushSlot s).toNat (s.readReg r) hpasses
  refine ⟨_, exec_pop_of_read32 q (v := s.readReg r) ?_, State.readReg_writeReg_same _ q _,
    fun hq => ?_, fun x hx => ?_⟩
  · rwa [State.readReg_setMem, State.readReg_writeReg_same]
  · rw [State.readReg_writeReg_of_ne _ q .sp _ hq.symm, State.readReg_writeReg_same,
      State.readReg_setMem, State.readReg_writeReg_same, pushSlot_add_four]
  · have hsp : x ∉ [Reg.sp] := mt (List.mem_append_left [q]) hx
    rw [writeReg_writeReg_frame _ .sp q _ _ x hx, State.readReg_setMem,
      writeReg_frame s .sp _ x hsp]

end Sys2Proof.Machine

/-! SUPPORT. HLT, unassigned opcodes, and what the host can do to a halted core (R200 to R203). -/

namespace Sys2Proof.Machine

/-! ### HLT (R200, R201) -/

/-- HLT sets `halted` and records the call of the halt hook, if one is registered (R200, R226). -/
theorem exec_hlt (s : State) :
    exec .hlt s = .next
      { s with halted := true
               hookCalls := s.hookCalls ++ (s.hooks.onHalt.map HookCall.onHalt).toList } := by
  rw [exec, execHlt, callOnHalt_eq]
  rfl

/-- Settles O25: the next state of `exec_hlt` differs in `halted` and in the record of calls alone. -/
theorem hltHaltsAndCallsHook : Obligations.HltHaltsAndCallsHook := by
  unfold Obligations.HltHaltsAndCallsHook
  exact fun s => ⟨_, exec_hlt s, rfl, rfl, fun _ _ => rfl, rfl, rfl, sameMemory_of_mem_eq rfl, rfl,
    rfl, rfl, rfl, rfl⟩

/-! ### Unassigned opcodes (R203) -/

/-- Settles O8: an unassigned byte is no prefix, so the fetch goes past the prefixes to its dispatch,
which finds no row for it. -/
theorem unassignedOpcodeRaises : Obligations.UnassignedOpcodeRaises := by
  unfold Obligations.UnassignedOpcodeRaises
  rintro s prefixes b ⟨_, hl⟩ hlive hb hcode hm
  apply step_of_fetch_failed hlive
  rw [fetchInstr_behind s prefixes b hl hcode (prefixOf_of_unassigned _ b hb)]
  exact fetchOperand_of_unassigned b _ _ (by rw [mayDispatch_past, hm])
    (by rw [State.past_params, hb])

/-! ### `halted` and the record of calls along a step -/

/-- A fetch touches neither (R142, R143). -/
theorem fetched_halt_frame (s : State) (ps : List Override) (v : Word) :
    ((s.setIp v).flipToggles ps).halted = s.halted
      ∧ ((s.setIp v).flipToggles ps).hookCalls = s.hookCalls := by
  simp

/-- A step that completes leaves both as they were, or it is the HLT of a live core. -/
theorem step_halt_cases {s t : State} (h : step s = .next t) :
    (t.halted = s.halted ∧ t.hookCalls = s.hookCalls)
      ∨ (s.halted = false ∧ t.halted = true
        ∧ t.hookCalls = s.hookCalls ++ (s.hooks.onHalt.map HookCall.onHalt).toList) := by
  rcases step_cases s with ⟨_, hs⟩ | ⟨hlive, ⟨i, u, hf, hs⟩ | ⟨f, u, _, hs⟩ | ⟨_, hs⟩ | ⟨_, hs⟩⟩ <;>
    rw [hs] at h
  · cases h
    exact .inl ⟨rfl, rfl⟩
  · obtain ⟨ps, v, rfl⟩ := fetchInstr_ready s u i hf
    obtain ⟨_, _, _, hkept | hhlt⟩ := exec_control _ _ _ h
    · exact .inl (by simpa using hkept)
    · exact .inr ⟨hlive, by simpa using hhlt⟩
  · cases h
  · cases h
  · cases h

/-- A step that fails leaves both as they were: only HLT writes them, and it cannot fail. -/
theorem step_raised_halt_frame {s left : State} {f : Failure}
    (h : step s = .fault (.raised f left)) :
    left.halted = s.halted ∧ left.hookCalls = s.hookCalls := by
  rcases step_cases s with ⟨_, hs⟩ | ⟨_, ⟨i, u, hf, hs⟩ | ⟨f', u, hf, hs⟩ | ⟨_, hs⟩ | ⟨_, hs⟩⟩ <;>
    rw [hs] at h
  · cases h
  · obtain ⟨ps, v, rfl⟩ := fetchInstr_ready s u i hf
    obtain ⟨_, _, hfault⟩ := exec_fault i _ _ h
    cases hfault
    exact fetched_halt_frame s ps v
  · cases h
    obtain ⟨ps, v, rfl⟩ := fetchInstr_failed s _ _ hf
    exact fetched_halt_frame s ps v
  · cases h
  · cases h

/-! ### Host actions that execute nothing -/

/-- A host write to Memory ends, and changes Memory at most (R62, R63). -/
theorem exists_hostWrite_state (addr : Int) (width : Nat) (write : Nat → Except Failure Memory)
    (s : State) : ∃ m : Memory, (hostWrite addr width write s).state? = some (s.setMem m) := by
  unfold hostWrite
  cases hostRead addr width write with
  | ok m => exact ⟨m, rfl⟩
  | error f => exact ⟨s.mem, rfl⟩

/-- An action of the host is a step, a run, or one that ends and touches neither `halted`, on which
the host has no operation, nor the record of calls (R48, D34). -/
theorem hostAct_halt_cases (a : HostAction) (s : State) :
    a = .step ∨ (∃ n : Nat, a = .run n)
      ∨ ∃ t : State, (hostAct a s).state? = some t ∧ t.halted = s.halted
        ∧ t.hookCalls = s.hookCalls := by
  have hwrite (addr : Int) (width : Nat) (write : Nat → Except Failure Memory) : ∃ t : State,
      (hostWrite addr width write s).state? = some t ∧ t.halted = s.halted
        ∧ t.hookCalls = s.hookCalls := by
    obtain ⟨m, hm⟩ := exists_hostWrite_state addr width write s
    exact ⟨_, hm, rfl, rfl⟩
  cases a with
  | step => exact .inl rfl
  | run n => exact .inr (.inl ⟨n, rfl⟩)
  | write8 | write16 | write32 => exact .inr (.inr (hwrite _ _ _))
  | _ => exact .inr (.inr ⟨_, rfl, rfl, rfl⟩)

/-- Settles O40: a halted core steps to itself, a run of it writes `running` alone, and no other
action executes anything. -/
theorem haltIsFinal : Obligations.HaltIsFinal := by
  unfold Obligations.HaltIsFinal
  intro a s hhalted
  rcases hostAct_halt_cases a s with rfl | ⟨n, rfl⟩ | ⟨t, ht, hkept, hcalls⟩
  · exact ⟨s, by rw [hostAct, hostStep, step_of_halted s hhalted]; rfl, hhalted, rfl⟩
  · obtain ⟨_, hrun⟩ := haltedCoreDoesNothing s n hhalted
    exact ⟨s.setRunning true, by rw [hostAct, hrun]; rfl, hhalted, rfl⟩
  · exact ⟨t, ht, hkept.trans hhalted, hcalls⟩

/-! ### The halt hook is called at most once (R201) -/

theorem haltCalls_congr {s t : State} (h : t.hookCalls = s.hookCalls) :
    t.haltCalls = s.haltCalls := by
  rw [State.haltCalls, State.haltCalls, h]

theorem haltCalls_le_of_hookCalls_append {s t : State} {c : Option HookId}
    (h : t.hookCalls = s.hookCalls ++ (c.map HookCall.onHalt).toList) :
    t.haltCalls ≤ s.haltCalls + 1 := by
  rw [State.haltCalls, State.haltCalls, h, List.filter_append, List.length_append]
  cases c <;> simp

/-- The property reads `halted` and the number of calls alone. -/
theorem haltCallsOnce_congr {s t : State} (hhalted : t.halted = s.halted)
    (hcalls : t.haltCalls = s.haltCalls) (hs : s.haltCallsOnce) : t.haltCallsOnce := by
  rwa [State.haltCallsOnce, hhalted, hcalls]

/-- A step calls the hook on a live core alone, which has not called it, and leaves it halted. -/
theorem haltCallsOnce_of_step_next (s t : State) (h : step s = .next t) (hs : s.haltCallsOnce) :
    t.haltCallsOnce := by
  rcases step_halt_cases h with ⟨hhalted, hcalls⟩ | ⟨hlive, hhalted, hcalls⟩
  · exact haltCallsOnce_congr hhalted (haltCalls_congr hcalls) hs
  · obtain ⟨_, hnone⟩ := hs
    have hle := haltCalls_le_of_hookCalls_append hcalls
    rw [hnone hlive] at hle
    exact ⟨hle, fun hlive' => by simp [hhalted] at hlive'⟩

theorem haltCallsOnce_of_step_raised (s left : State) (f : Failure)
    (h : step s = .fault (.raised f left)) (hs : s.haltCallsOnce) : left.haltCallsOnce := by
  obtain ⟨hhalted, hcalls⟩ := step_raised_halt_frame h
  exact haltCallsOnce_congr hhalted (haltCalls_congr hcalls) hs

/-- A delivery calls the error hook at most (R223). -/
theorem haltCallsOnce_of_deliver (f : Failure) (s t : State)
    (h : (deliver f s).state? = some t) (hs : s.haltCallsOnce) : t.haltCallsOnce := by
  obtain ⟨_, hcalls, hhalted⟩ := deliver_state f s t h
  exact haltCallsOnce_congr hhalted hcalls hs

section Keeps

variable {P : State → Prop} (hnext : ∀ s t : State, step s = .next t → P s → P t)
  (hraised : ∀ (s left : State) (f : Failure), step s = .fault (.raised f left) → P s → P left)

include hnext hraised

/-- What every step keeps, completing or failing, a step called by the host keeps (R224). -/
theorem hostStep_keeps {s t : State} (h : (hostStep s).state? = some t) (hs : P s) : P t := by
  unfold hostStep at h
  split at h
  next u hstep =>
    cases h
    exact hnext s _ hstep hs
  next f left hstep =>
    cases h
    exact hraised s _ f hstep hs
  · cases h
  · cases h

/-- What every step and every delivery keep, the loop of `run` keeps (R151). -/
theorem runLoop_keeps
    (hdeliver : ∀ (f : Failure) (s t : State), (deliver f s).state? = some t → P s → P t)
    {budget count : Nat} {s t : State} (h : (runLoop budget count s).state? = some t) (hs : P s) :
    P t := by
  have hexit {count : Nat} {s : State} (h : (runExit count s).state? = some t) (hs : P s) :
      P t := by
    unfold runExit at h
    split at h
    · cases h
      exact hs
    · exact hdeliver _ s t h hs
  induction budget generalizing count s with
  | zero => exact hexit h hs
  | succ budget ih =>
    rw [runLoop] at h
    split at h
    · split at h
      next u hstep => exact ih h (hnext s u hstep hs)
      next f left hstep => exact hdeliver f left t h (hraised s left f hstep hs)
      · cases h
      · cases h
    · exact hexit h hs

end Keeps

/-- Settles O39: every step keeps the property, so a step and a run do, and no other action touches
what it reads. -/
theorem haltHookCalledAtMostOnce : Obligations.HaltHookCalledAtMostOnce := by
  unfold Obligations.HaltHookCalledAtMostOnce
  intro a s t hs h
  rcases hostAct_halt_cases a s with rfl | ⟨n, rfl⟩ | ⟨u, hu, hhalted, hcalls⟩
  · exact hostStep_keeps haltCallsOnce_of_step_next haltCallsOnce_of_step_raised h hs
  · have hrunning : (s.setRunning true).haltCallsOnce := hs
    exact runLoop_keeps haltCallsOnce_of_step_next haltCallsOnce_of_step_raised
      haltCallsOnce_of_deliver h hrunning
  · obtain rfl := Option.some.inj (hu.symm.trans h)
    exact haltCallsOnce_congr hhalted (haltCalls_congr hcalls) hs

end Sys2Proof.Machine

/-! SUPPORT. The failures a step can raise, and their delivery by `run` (R210 to R218, R223). -/

namespace Sys2Proof.Machine

/-! ### What a step raises (R218) -/

/-- A fetch fails at a byte or at an operand outside Memory, or at a byte no row of the core's map
has (R212, R203). -/
theorem failure_of_fetchInstr_failed {s left : State} {f : Failure}
    (h : fetchInstr s = .failed f left) :
    (∃ a : Word, f = .outOfBounds a.toNat 1 ∨ f = .outOfBounds a.toNat 4)
      ∨ ∃ (b : Byte) (a : Word),
        unassigned s.params.opcodes b = true ∧ f = .unsupportedOpcode b a := by
  obtain ⟨_, _, ⟨_, h'⟩ | ⟨_, h', hkind⟩ | ⟨h', _⟩ | h'⟩ := fetchLoop_cases (s.mem.size + 1) s <;>
    rw [fetchInstr, h'] at h <;> cases h
  exact hkind

/-- An execution fails on a stack access, which is four bytes wide (R190, R191). -/
theorem failure_of_exec_raised {i : Instr} {s left : State} {f : Failure}
    (h : exec i s = .fault (.raised f left)) : ∃ a : Word, f = .outOfBounds a.toNat 4 := by
  obtain ⟨a, _, hfault⟩ := exec_fault i s _ h
  cases hfault
  exact ⟨a, rfl⟩

/-- Settles O14: what a step raises, its fetch or its execution raised. -/
theorem stepFailureKinds : Obligations.StepFailureKinds := by
  unfold Obligations.StepFailureKinds
  intro s left f h
  rcases step_cases s with ⟨_, hs⟩ | ⟨_, ⟨i, u, _, hs⟩ | ⟨f', u, hf, hs⟩ | ⟨_, hs⟩ | ⟨_, hs⟩⟩ <;>
    rw [hs] at h
  · cases h
  · obtain ⟨a, ha⟩ := failure_of_exec_raised h
    exact .inl ⟨a, .inr ha⟩
  · cases h
    exact failure_of_fetchInstr_failed hf
  · cases h
  · cases h

/-! ### Delivery (R223) -/

/-- Settles O43: the error hook's slot decides between the two ends, and each of their states is the
failed one with `running` cleared and at most one call recorded. -/
theorem deliveryClearsRunning : Obligations.DeliveryClearsRunning := by
  unfold Obligations.DeliveryClearsRunning
  exact fun f s => ⟨fun c hc => ⟨_, deliver_of_some f s c hc, rfl, rfl, rfl⟩,
    fun hc => ⟨_, deliver_of_none f s hc, rfl, rfl⟩⟩

end Sys2Proof.Machine

/-! SUPPORT. The Loader: its header checks, its copies and the state it gives (R256 to R266). -/

namespace Sys2Proof.Machine

/-! ### The header (R256 to R260) -/

theorem exists_of_bind_eq_ok {ε α β : Type} {x : Except ε α} {f : α → Except ε β} {b : β}
    (h : x >>= f = .ok b) : ∃ a : α, x = .ok a ∧ f a = .ok b := by
  cases x with
  | error e => cases h
  | ok a => exact ⟨a, rfl, h⟩

/-- A check that does not throw found the two values equal. -/
theorem eq_of_check_eq_ok {ε α β : Type} {x y : α} [Decidable (x ≠ y)] {e : ε}
    {f : Unit → Except ε β} {rest : Except ε β} {b : β}
    (h : (if x ≠ y then throw e >>= f else rest) = .ok b) : x = y ∧ rest = .ok b := by
  split at h
  · cases h
  · exact ⟨not_not.1 ‹_›, h⟩

/-- Another legacy signature fails whatever follows (R257). -/
theorem readHeader_of_bad_mz {p : Config.LoaderParams} {buf : List Byte} {mz : Half}
    (hmz : bufU16 buf 0 = .ok mz) (hbad : mz ≠ p.sigMZ) :
    readHeader p buf = .error .invalidHeader := by
  simp only [readHeader, hmz, bind, Except.bind]
  rw [if_pos hbad]
  rfl

/-- Behind the legacy signature, another extended signature fails (R258). -/
theorem readHeader_of_bad_pe {p : Config.LoaderParams} {buf : List Byte} {off pe : Word}
    (hmz : bufU16 buf 0 = .ok p.sigMZ) (hoff : bufU32 buf 0x3C = .ok off)
    (hpe : bufU32 buf off.toNat = .ok pe) (hbad : pe ≠ p.sigPE) :
    readHeader p buf = .error .invalidHeader := by
  simp only [readHeader, hmz, hoff, hpe, bind, Except.bind]
  rw [if_neg (not_not_intro rfl), if_pos hbad]
  rfl

/-- Behind both signatures, another target class fails with a failure of its own (R259). -/
theorem readHeader_of_bad_class {p : Config.LoaderParams} {buf : List Byte} {off : Word}
    {magic : Half} (hmz : bufU16 buf 0 = .ok p.sigMZ) (hoff : bufU32 buf 0x3C = .ok off)
    (hpe : bufU32 buf off.toNat = .ok p.sigPE)
    (hmagic : bufU16 buf (off.toNat + 24) = .ok magic) (hbad : magic ≠ p.magicPE32) :
    readHeader p buf = .error .unsupported64Bit := by
  simp only [readHeader, hmz, hoff, hpe, hmagic, bind, Except.bind]
  rw [if_neg (not_not_intro rfl), if_neg (not_not_intro rfl), if_pos hbad]
  rfl

/-- A header that is read passed its three checks, and its fields stand at their offsets (R257 to
R260). -/
theorem exists_fields_of_readHeader {p : Config.LoaderParams} {buf : List Byte} {hd : ImageHeader}
    (h : readHeader p buf = .ok hd) :
    bufU16 buf 0 = .ok p.sigMZ ∧ ∃ off : Word, bufU32 buf 0x3C = .ok off
      ∧ bufU32 buf off.toNat = .ok p.sigPE ∧ bufU16 buf (off.toNat + 24) = .ok p.magicPE32
      ∧ bufU32 buf (off.toNat + 52) = .ok hd.imageBase
      ∧ bufU32 buf (off.toNat + 40) = .ok hd.entryPointRVA := by
  obtain ⟨_, hmz, h⟩ := exists_of_bind_eq_ok h
  obtain ⟨heqMz, h⟩ := eq_of_check_eq_ok h
  obtain ⟨off, hoff, h⟩ := exists_of_bind_eq_ok h
  obtain ⟨_, hpe, h⟩ := exists_of_bind_eq_ok h
  obtain ⟨heqPe, h⟩ := eq_of_check_eq_ok h
  obtain ⟨_, hmagic, h⟩ := exists_of_bind_eq_ok h
  obtain ⟨heqClass, h⟩ := eq_of_check_eq_ok h
  obtain ⟨_, -, h⟩ := exists_of_bind_eq_ok h
  obtain ⟨_, -, h⟩ := exists_of_bind_eq_ok h
  obtain ⟨_, hbase, h⟩ := exists_of_bind_eq_ok h
  obtain ⟨_, hentry, h⟩ := exists_of_bind_eq_ok h
  cases h
  subst heqMz heqPe heqClass
  exact ⟨hmz, off, hoff, hpe, hmagic, hbase, hentry⟩

/-- A header that is not read fails the load with its failure (R256). -/
theorem load_of_readHeader_error {params : Config.Params} {p : Config.LoaderParams} {n : Nat}
    {buf : List Byte} {f : LoadFailure} (h : readHeader p buf = .error f) :
    load params p n buf = .failed f := by
  rw [load, loadImage, h]
  rfl

/-- Settles O58: each bad field ends the reading of the header, and so the load. -/
theorem loaderRejectsBadHeaders : Obligations.LoaderRejectsBadHeaders := by
  unfold Obligations.LoaderRejectsBadHeaders
  intro params p n buf
  refine ⟨fun v hmz hbad => ?_, fun off pe hmz hoff hpe hbad => ?_,
    fun off magic hmz hoff hpe hmagic hbad => ?_⟩
  · exact load_of_readHeader_error (readHeader_of_bad_mz hmz hbad)
  · exact load_of_readHeader_error (readHeader_of_bad_pe hmz hoff hpe hbad)
  · exact load_of_readHeader_error (readHeader_of_bad_class hmz hoff hpe hmagic hbad)

/-! ### A section copy (R263) -/

/-- A copy fails when it would run past a buffer, and otherwise puts the bytes at their place. -/
theorem copySection_eq (buf : List Byte) (imageBase : Word) (d : Section) (m : Memory) :
    copySection buf imageBase d m
      = if buf.length < d.rawFileOffset.toNat + d.rawSize.toNat
          ∨ m.size < imageBase.toNat + d.virtualAddress.toNat + d.rawSize.toNat
        then .error .outOfBounds
        else .ok (m.putBytes (imageBase.toNat + d.virtualAddress.toNat)
          ((buf.drop d.rawFileOffset.toNat).take d.rawSize.toNat)) :=
  rfl

/-- Settles O60: the copy's test is the failure condition, and the bytes are those of `putBytes`. -/
theorem sectionCopyPlacesBytes : Obligations.SectionCopyPlacesBytes := by
  unfold Obligations.SectionCopyPlacesBytes
  intro buf imageBase d m
  rw [copySection_eq]
  split
  next hpast => exact ⟨iff_of_true rfl hpast, nofun⟩
  next hfits =>
    refine ⟨iff_of_false nofun hfits, ?_⟩
    rintro _ ⟨⟩
    have hlen : ((buf.drop d.rawFileOffset.toNat).take d.rawSize.toNat).length
        = d.rawSize.toNat := by
      rw [List.length_take, List.length_drop]
      omega
    refine ⟨Memory.putBytes_size _ _ _, fun k hk => ?_, fun a ha => ?_⟩
    · rw [Memory.byteAt_putBytes, if_pos (by omega), Nat.add_sub_cancel_left]
      simp [hk]
    · exact Memory.byteAt_putBytes_outside _ _ _ _ (by rwa [hlen])

/-! ### The loaded core (R264, R266) -/

theorem launchRegs_get_of_ne (imageBase : Word) {r : Reg} (hsp : r ≠ .sp) (hbp : r ≠ .bp) :
    (launchRegs imageBase).get r = 0 := by
  cases r with
  | sp => exact absurd rfl hsp
  | bp => exact absurd rfl hbp
  | _ => rfl

/-- A load that gives a core was asked for no hook, read the header and copied the sections; the core
is the created one with that Memory, the launch registers and the entry point (R264, R266). -/
theorem exists_header_of_load {params : Config.Params} {p : Config.LoaderParams} {n : Nat}
    {buf : List Byte} {s : State} (h : load params p n buf = .loaded s) :
    p.syscallHook = none ∧ ∃ (hd : ImageHeader) (m : Memory), readHeader p buf = .ok hd
      ∧ copySections buf hd.imageBase hd.sectionCount.toNat hd.sectionTableOffset
          (State.create params n).mem = .ok m
      ∧ s = (((State.create params n).setMem m).setRegs (launchRegs hd.imageBase)).setIp
          (hd.imageBase + hd.entryPointRVA) := by
  rw [load] at h
  split at h
  · cases h
  next himage =>
    split at h
    · cases h
      obtain ⟨hd, hread, himage⟩ := exists_of_bind_eq_ok himage
      obtain ⟨m, hcopy, himage⟩ := exists_of_bind_eq_ok himage
      cases himage
      exact ⟨‹_›, hd, m, hread, hcopy, rfl⟩
    · cases h

/-- Settles O59: the loaded core is the created one with the launch registers and the copied
sections, and the copies keep the invariant and the capacity. -/
theorem loadGivesLaunchState : Obligations.LoadGivesLaunchState := by
  unfold Obligations.LoadGivesLaunchState
  intro params p n buf s hl hn h
  obtain ⟨hhook, hd, m, hread, hcopy, rfl⟩ := exists_header_of_load h
  obtain ⟨-, off, hoff, -, -, hbase, hentry⟩ := exists_fields_of_readHeader hread
  obtain ⟨hwf, hlegal⟩ := create_inv params n hl hn
  obtain ⟨hwf, hsize⟩ := copySections_wf _ _ _ _ _ _ hwf hcopy
  exact ⟨hhook, off, hd.imageBase, hd.entryPointRVA, hoff, hbase, hentry, rfl, rfl, rfl,
    fun _ => launchRegs_get_of_ne _, rfl, rfl, rfl, rfl, rfl, rfl, rfl, rfl, hsize, ⟨hwf, hlegal⟩,
    fun _ hcode hat => ⟨rfl, rfl, ⟨hwf, hlegal⟩, hcode, hat⟩⟩

end Sys2Proof.Machine
